-- ==== Sys2Proof/Word.lean ====
section
/-! DEFINITION. The words of the block: the byte and the 16-bit field (spec/00_scope.md R8, R11). -/

namespace Sys2Proof

/-- One byte of a block, payload or buffer; bit 0 is the least significant bit (R11). -/
abbrev Byte := BitVec 8

/-- The 16-bit fields the spec calls u16: `bouquet_id`, `transport_stream_id`, `original_network_id`, `TARGET_PID` (R8). -/
abbrev Half := BitVec 16

end Sys2Proof
end

