-- ==== Sys2Proof/Config.lean ====
section
/-! DEFINITION. The fixed constants of the block (spec/00_scope.md R6) and the parameters of one instance (R7).
There is no free value: the block is deterministic and the source leaves no value open at run time (R17). -/

namespace Sys2Proof

/-- `SYNC_BYTE` (R6): the first byte of a valid transport packet. -/
def syncByte : Byte := 0x47#8

/-- `PACKET_SIZE` (R6). -/
def packetSize : Nat := 188

/-- `BAT_PID` (R6): the default of `TARGET_PID`. -/
def batPid : Half := 0x0011#16

/-- `BAT_TABLE_ID` (R6); also the hardwired `TABLE_ID` of spec/10_state.md R40. -/
def batTableId : Byte := 0x4A#8

/-- `NIT_PID` (R6): reference only, used by no rule. -/
def nitPid : Half := 0x0010#16

/-- `NIT_TABLE_ID` (R6): reference only, used by no rule. -/
def nitTableId : Byte := 0x40#8

/-- `OTA_LINKAGE_TAG` (R6): reference only, used by no rule (spec/41_descriptor_codec.md R152). -/
def otaLinkageTag : Byte := 0x09#8

/-- `SECTION_HEADER_MIN` (R6): the least buffer length the Section Decoder accepts. -/
def sectionHeaderMin : Nat := 8

/-- `TS_ENTRY_HEADER` (R6): bytes in the fixed header of a transport-stream entry. -/
def tsEntryHeader : Nat := 6

/-- `DESC_HEADER` (R6): bytes in a descriptor's tag and length header. -/
def descHeader : Nat := 2

/-- `BUF_CAP` (R7): capacity of the section buffer, never exceeded (spec/43_section_reassembler.md R226). -/
def bufCap : Nat := 4281

/-- The parameters of an instance (R7). `none` is the spec's "unbounded". -/
structure Params where
  /-- `TARGET_PID`: the PID the demultiplexer passes; a value above 0x1FFF matches no packet (R125). -/
  targetPid : Half
  /-- `CAP_BOUQUETS`: maximum number of records in the store. -/
  capBouquets : Option Nat
  /-- `CAP_TS`: maximum transport-stream entries in one record. -/
  capTs : Option Nat
  /-- `CAP_DESC_BYTES`: maximum total descriptor bytes held by one record. -/
  capDescBytes : Option Nat
  /-- `BLOCK_MAX`: the largest block the input can present; it never changes a result (R7, log entry 7). -/
  blockMax : Option Nat
  deriving DecidableEq, Repr

/-- The defaults of R7. -/
def Params.default : Params :=
  { targetPid := batPid, capBouquets := none, capTs := none, capDescBytes := none, blockMax := none }

end Sys2Proof
end

