-- ==== Sys2Proof/Syntax.lean ====
section
/-! DEFINITION. The operations of the block as syntax: one constructor of `Instr` for each row of
spec/opcode_table.json. The block is no processor: its "instructions" are the operation classes that a block, a
payload, the state and the host's transactions select (spec/30_encoding.md R98, R99). -/

namespace Sys2Proof

/-- A Descriptor (spec/10_state.md R36): a tag and 0 to 255 data bytes. -/
structure Descriptor where
  tag  : Byte
  data : List Byte
  deriving DecidableEq, Repr

/-- A TransportStream (spec/10_state.md R37): one entry of the second loop. -/
structure TransportStream where
  transportStreamId : Half
  originalNetworkId : Half
  descriptors       : List Descriptor
  deriving DecidableEq, Repr

/-- A BATSection (spec/10_state.md R39): what the Section Decoder hands to the Bouquet Aggregator. -/
structure BATSection where
  bouquetId          : Half
  versionNumber      : BitVec 5
  sectionNumber      : Byte
  lastSectionNumber  : Byte
  bouquetDescriptors : List Descriptor
  transportStreams   : List TransportStream
  deriving DecidableEq, Repr

/-- The header bits no rule reads (spec/30_encoding.md R81, R82): byte 1 bit 7 (`tei`), byte 1 bit 5 (`prio`), byte 3
bits 7:6 (`sc`) and byte 3 bits 3:0 (`cc`). They are carried so that an encoding drops no bit. -/
structure IgnoredBits where
  tei  : Bool
  prio : Bool
  sc   : BitVec 2
  cc   : BitVec 4
  deriving DecidableEq, Repr

/-- The host's transactions (spec/45_block_operations.md R282). -/
inductive HostOp where
  /-- `PKT(block)` (R280). -/
  | pkt (block : List Byte)
  /-- `RESET` (R290). -/
  | reset
  /-- `READ` of one `bouquet_id`, or of the whole store when there is none (R292). -/
  | read (key : Option Half)
  deriving DecidableEq, Repr

/-- The operations, one constructor per row of the operation table. -/
inductive Instr where
  /-- PKT.BADLEN (spec/40_packet_demux.md R133): a block whose length is not 188. -/
  | pktBadLen (block : List Byte)
  /-- PKT.START.AFC01 (R138): `payload` is PKT[4..188]. -/
  | pktStartAfc01 (bits : IgnoredBits) (payload : List Byte)
  /-- PKT.CONT.AFC01 (R139): `payload` is PKT[4..188]. -/
  | pktContAfc01 (bits : IgnoredBits) (payload : List Byte)
  /-- PKT.START.AFC11 (R140): `afLen` is PKT[4], `rest` is PKT[5..188]. -/
  | pktStartAfc11 (bits : IgnoredBits) (afLen : Byte) (rest : List Byte)
  /-- PKT.CONT.AFC11 (R141): `afLen` is PKT[4], `rest` is PKT[5..188]. -/
  | pktContAfc11 (bits : IgnoredBits) (afLen : Byte) (rest : List Byte)
  /-- PKT.NOPAYLOAD.AFC00 (R136): `rest` is PKT[4..188]. -/
  | pktNoPayloadAfc00 (bits : IgnoredBits) (pusi : Bool) (rest : List Byte)
  /-- PKT.NOPAYLOAD.AFC10 (R137): `rest` is PKT[4..188]. -/
  | pktNoPayloadAfc10 (bits : IgnoredBits) (pusi : Bool) (rest : List Byte)
  /-- PKT.OTHERPID (R135): `rest` is PKT[4..188]. -/
  | pktOtherPid (bits : IgnoredBits) (pusi : Bool) (pid : BitVec 13) (afc : BitVec 2) (rest : List Byte)
  /-- PKT.BADSYNC (R134): `first` is PKT[0], `rest` is PKT[1..188]. -/
  | pktBadSync (first : Byte) (rest : List Byte)
  /-- SEC.BEGIN (spec/43_section_reassembler.md R216): the start payload is `ptr :: pre ++ sec`, the section's first
  bytes are `sec` (spec/30_encoding.md R86). -/
  | secBegin (ptr : Byte) (pre sec : List Byte)
  /-- SEC.SKIP (R217): a start payload that starts no section. -/
  | secSkip (payload : List Byte)
  /-- SEC.APPEND (R218): a continuation payload while Collecting. -/
  | secAppend (payload : List Byte)
  /-- SEC.IGNORE (R219): a continuation payload while Idle. -/
  | secIgnore (payload : List Byte)
  /-- SEC.DELIVER (R214): `buffer` is the section buffer, whole. -/
  | secDeliver (buffer : List Byte)
  /-- SECTION.DECODE (spec/42_section_decoder.md R170). -/
  | sectionDecode (buffer : List Byte)
  /-- DESC.PARSE (spec/41_descriptor_codec.md R150). -/
  | descParse (data : List Byte)
  /-- MERGE.CREATE (spec/44_bouquet_aggregator.md R256). -/
  | mergeCreate (sec : BATSection)
  /-- MERGE.NEW (R257). -/
  | mergeNew (sec : BATSection)
  /-- MERGE.DUP (R258). -/
  | mergeDup (sec : BATSection)
  /-- MERGE.RANGE (R259). -/
  | mergeRange (sec : BATSection)
  /-- MERGE.OVF (R260). -/
  | mergeOvf (sec : BATSection)
  /-- MERGE.ABSENT (R261): the decoder returned none. -/
  | mergeAbsent
  /-- PKT (spec/45_block_operations.md R280): the host's transaction, any byte block. -/
  | pkt (block : List Byte)
  /-- RESET (R290). -/
  | reset
  /-- READ (R292). -/
  | read (key : Option Half)
  deriving DecidableEq, Repr

end Sys2Proof
end

