-- ==== Sys2Proof/WellFormed.lean ====
section
/-! DEFINITION. Which instructions are well formed: the operand conditions the operation table and the formats of
spec/30_encoding.md state. Conditions on the state (is a section being collected, is there a record) are no part of
it: `Decode.lean` and `Machine/Aggregator.lean` select by them. -/

namespace Sys2Proof

/-- A descriptor's data has at most 255 bytes (spec/10_state.md R36). -/
def Descriptor.wf (d : Descriptor) : Bool := decide (d.data.length ≤ 255)

/-- Every descriptor of an entry is well formed. -/
def TransportStream.wf (t : TransportStream) : Bool := t.descriptors.all Descriptor.wf

/-- Every descriptor of a section is well formed. -/
def BATSection.wf (sec : BATSection) : Bool :=
  sec.bouquetDescriptors.all Descriptor.wf && sec.transportStreams.all TransportStream.wf

/-- A payload has 1 to 184 bytes (spec/40_packet_demux.md R120, spec/43_section_reassembler.md R200). -/
def payloadLength (payload : List Byte) : Bool := decide (1 ≤ payload.length) && decide (payload.length ≤ 184)

/-- A 13-bit PID can equal `TARGET_PID` only where the latter is at most 0x1FFF (spec/40_packet_demux.md R125). -/
def pidReachable (targetPid : Half) : Bool := decide (targetPid.toNat ≤ 0x1FFF)

/-- The selecting condition of SEC.SKIP on a start payload (spec/30_encoding.md R99): no section byte at the pointer
target, a byte that is not 0x4A there, or fewer than three bytes. -/
def skipPayload : List Byte → Bool
  | [] => false
  | ptr :: tail =>
    match tail.drop ptr.toNat with
    | t :: _ :: _ :: _ => t != batTableId
    | _ => true

/-- Well-formedness of an instruction for an instance whose `TARGET_PID` is `targetPid`. -/
def Instr.wf (targetPid : Half) : Instr → Bool
  | .pktBadLen block => decide (block.length ≠ packetSize)
  | .pktStartAfc01 _ payload => pidReachable targetPid && decide (payload.length = 184)
  | .pktContAfc01 _ payload => pidReachable targetPid && decide (payload.length = 184)
  | .pktStartAfc11 _ _ rest => pidReachable targetPid && decide (rest.length = 183)
  | .pktContAfc11 _ _ rest => pidReachable targetPid && decide (rest.length = 183)
  | .pktNoPayloadAfc00 _ _ rest => pidReachable targetPid && decide (rest.length = 184)
  | .pktNoPayloadAfc10 _ _ rest => pidReachable targetPid && decide (rest.length = 184)
  | .pktOtherPid _ _ pid _ rest => (pid.setWidth 16 != targetPid) && decide (rest.length = 184)
  | .pktBadSync first rest => (first != syncByte) && decide (rest.length = 187)
  | .secBegin ptr pre sec =>
    decide (pre.length = ptr.toNat) && decide (3 ≤ sec.length) && (sec.head? == some batTableId) &&
      decide (1 + pre.length + sec.length ≤ 184)
  | .secSkip payload => payloadLength payload && skipPayload payload
  | .secAppend payload => payloadLength payload
  | .secIgnore payload => payloadLength payload
  | .secDeliver buffer => decide (3 ≤ buffer.length) && decide (buffer.length ≤ bufCap)
  | .sectionDecode buffer => decide (buffer.length ≤ bufCap)
  | .descParse data => decide (data.length ≤ 4095)
  | .mergeCreate sec => sec.wf && decide (sec.sectionNumber.toNat ≤ sec.lastSectionNumber.toNat)
  | .mergeNew sec => sec.wf
  | .mergeDup sec => sec.wf
  | .mergeRange sec => sec.wf
  | .mergeOvf sec => sec.wf
  | .mergeAbsent => true
  | .pkt _ => true
  | .reset => true
  | .read _ => true

end Sys2Proof
end

