-- ==== Sys2Proof/Decode.lean ====
section
/-! DEFINITION. The operation map (spec/30_encoding.md R98, R99) as a decoder, and the encoder written from the same
layouts. Every byte block has a class (R97), so a block or a payload is never rejected; what bytes alone do not select
is rejected by name. -/

namespace Sys2Proof

/-! ### Level one: the packet classes (R98) -/

/-- The header word `W` of R98: `PKT[0]` is its most significant byte. -/
def headerWord (b0 b1 b2 b3 : Byte) : BitVec 32 := b0 ++ b1 ++ b2 ++ b3

/-- A row's `match` for a `TARGET_PID`: R98 gives it for the default and says to replace bits 20:8. `base` is the match
with those bits clear. -/
def rowMatch (base : BitVec 32) (targetPid : Half) : BitVec 32 := base ||| (targetPid.setWidth 32 <<< 8)

/-- Does one of rows 2 to 7 of R98 match the header word? They never do for a `TARGET_PID` above 0x1FFF. -/
def rowHits (targetPid : Half) (mask base w : BitVec 32) : Bool :=
  pidReachable targetPid && (w &&& mask == rowMatch base targetPid)

/-- The bits of the header that no rule reads (R81, R82). -/
def ignoredBitsOf (b1 b3 : Byte) : IgnoredBits :=
  { tei := b1.getLsbD 7, prio := b1.getLsbD 5, sc := b3.extractLsb' 6 2, cc := b3.extractLsb' 0 4 }

/-- The payload-unit-start indicator, bit 6 of byte 1 (R81). -/
def pusiOf (b1 : Byte) : Bool := b1.getLsbD 6

/-- The 13-bit PID field, bits 4:0 of byte 1 and byte 2 (R81). -/
def pidField (b1 b2 : Byte) : BitVec 13 := b1.extractLsb' 0 5 ++ b2

/-- The adaptation-field-control field, bits 5:4 of byte 3 (R81). -/
def afcField (b3 : Byte) : BitVec 2 := b3.extractLsb' 4 2

/-- The class of a 188-byte block, from its four header bytes, byte 4 (the length of an adaptation field, where there is
one) and the other 183: rows 2 to 9 of R98, the first that matches. -/
def decodeHeader (targetPid : Half) (b0 b1 b2 b3 b4 : Byte) (rest : List Byte) : Instr :=
  let w := headerWord b0 b1 b2 b3
  let bits := ignoredBitsOf b1 b3
  if rowHits targetPid 0xFF5FFF30#32 0x47400010#32 w then .pktStartAfc01 bits (b4 :: rest)
  else if rowHits targetPid 0xFF5FFF30#32 0x47000010#32 w then .pktContAfc01 bits (b4 :: rest)
  else if rowHits targetPid 0xFF5FFF30#32 0x47400030#32 w then .pktStartAfc11 bits b4 rest
  else if rowHits targetPid 0xFF5FFF30#32 0x47000030#32 w then .pktContAfc11 bits b4 rest
  else if rowHits targetPid 0xFF1FFF30#32 0x47000000#32 w then .pktNoPayloadAfc00 bits (pusiOf b1) (b4 :: rest)
  else if rowHits targetPid 0xFF1FFF30#32 0x47000020#32 w then .pktNoPayloadAfc10 bits (pusiOf b1) (b4 :: rest)
  else if w &&& 0xFF000000#32 == 0x47000000#32 then
    .pktOtherPid bits (pusiOf b1) (pidField b1 b2) (afcField b3) (b4 :: rest)
  else .pktBadSync b0 (b1 :: b2 :: b3 :: b4 :: rest)

/-- The class of a presented block (R98). Row 1 is the length test; the last arm is unreachable, since a block of 188
bytes has five bytes. -/
def decodeBlock (targetPid : Half) (block : List Byte) : Instr :=
  if block.length ≠ packetSize then .pktBadLen block
  else
    match block with
    | b0 :: b1 :: b2 :: b3 :: b4 :: rest => decodeHeader targetPid b0 b1 b2 b3 b4 rest
    | short => .pktBadLen short

/-- The operation a host transaction runs: a block runs its class, RESET and READ are themselves (R99, last
sentence). -/
def decodeOp (targetPid : Half) : HostOp → Instr
  | .pkt block => decodeBlock targetPid block
  | .reset => .reset
  | .read key => .read key

/-! ### Level two: the payload operations (R99) -/

/-- A start payload: SEC.BEGIN when three bytes of a section, the first of them 0x4A, stand at the pointer target,
SEC.SKIP otherwise. -/
def decodeStartPayload : List Byte → Instr
  | [] => .secSkip []
  | ptr :: tail =>
    match tail.drop ptr.toNat with
    | t :: u :: v :: more =>
      if t = batTableId then .secBegin ptr (tail.take ptr.toNat) (t :: u :: v :: more) else .secSkip (ptr :: tail)
    | _ => .secSkip (ptr :: tail)

/-- The operation a payload selects (R99): by `is_start`, by whether a section is being collected, and for a start
payload by its bytes. -/
def decodePayload (collecting isStart : Bool) (payload : List Byte) : Instr :=
  if isStart then decodeStartPayload payload
  else if collecting then .secAppend payload
  else .secIgnore payload

/-! ### The encoder -/

/-- Byte 1 of a packet (R81, R100): `tei`, PUSI, `prio`, PID[12:8]. -/
def headerByte1 (bits : IgnoredBits) (pusi : Bool) (pid : BitVec 13) : Byte :=
  BitVec.ofBool bits.tei ++ BitVec.ofBool pusi ++ BitVec.ofBool bits.prio ++ pid.extractLsb' 8 5

/-- Byte 3 of a packet (R81, R100): `sc`, AFC, `cc`. -/
def headerByte3 (bits : IgnoredBits) (afc : BitVec 2) : Byte := bits.sc ++ afc ++ bits.cc

/-- A packet from its header fields and the bytes after the header (R81). -/
def encodePacket (bits : IgnoredBits) (pusi : Bool) (pid : BitVec 13) (afc : BitVec 2) (rest : List Byte) : List Byte :=
  syncByte :: headerByte1 bits pusi pid :: pid.setWidth 8 :: headerByte3 bits afc :: rest

/-- What an instruction is written as: the format its table row names. -/
inductive Encoded where
  /-- A block presented by PKT (format TSP). -/
  | block (bytes : List Byte)
  /-- A payload (formats PAY.S and PAY.C). -/
  | payload (isStart : Bool) (bytes : List Byte)
  /-- The section buffer at its delivery (format SEC). -/
  | delivery (bytes : List Byte)
  /-- A buffer handed to the Section Decoder (format SEC). -/
  | sectionBuffer (bytes : List Byte)
  /-- A byte span handed to the Descriptor Codec (format DESC, repeated). -/
  | span (bytes : List Byte)
  /-- What the decoder hands to the aggregator (format BATSection). -/
  | decoded (sec : Option BATSection)
  /-- A host transaction, which has no bit pattern. -/
  | transaction (op : HostOp)
  deriving DecidableEq, Repr

/-- The encoding of an instruction for an instance whose `TARGET_PID` is `targetPid`. -/
def encode (targetPid : Half) : Instr → Encoded
  | .pktBadLen block => .block block
  | .pktStartAfc01 bits payload => .block (encodePacket bits true (targetPid.setWidth 13) 1#2 payload)
  | .pktContAfc01 bits payload => .block (encodePacket bits false (targetPid.setWidth 13) 1#2 payload)
  | .pktStartAfc11 bits afLen rest => .block (encodePacket bits true (targetPid.setWidth 13) 3#2 (afLen :: rest))
  | .pktContAfc11 bits afLen rest => .block (encodePacket bits false (targetPid.setWidth 13) 3#2 (afLen :: rest))
  | .pktNoPayloadAfc00 bits pusi rest => .block (encodePacket bits pusi (targetPid.setWidth 13) 0#2 rest)
  | .pktNoPayloadAfc10 bits pusi rest => .block (encodePacket bits pusi (targetPid.setWidth 13) 2#2 rest)
  | .pktOtherPid bits pusi pid afc rest => .block (encodePacket bits pusi pid afc rest)
  | .pktBadSync first rest => .block (first :: rest)
  | .secBegin ptr pre sec => .payload true (ptr :: (pre ++ sec))
  | .secSkip payload => .payload true payload
  | .secAppend payload => .payload false payload
  | .secIgnore payload => .payload false payload
  | .secDeliver buffer => .delivery buffer
  | .sectionDecode buffer => .sectionBuffer buffer
  | .descParse data => .span data
  | .mergeCreate sec => .decoded (some sec)
  | .mergeNew sec => .decoded (some sec)
  | .mergeDup sec => .decoded (some sec)
  | .mergeRange sec => .decoded (some sec)
  | .mergeOvf sec => .decoded (some sec)
  | .mergeAbsent => .decoded none
  | .pkt block => .transaction (.pkt block)
  | .reset => .transaction .reset
  | .read key => .transaction (.read key)

/-- Why a decoder answers no instruction. Both are safe: no instruction is made up. -/
inductive DecodeReject where
  /-- Which MERGE operation a section runs is chosen by the store, not by the encoding (R99, third level):
  `mergeClass` of Machine/Aggregator.lean chooses it. -/
  | selectedByStore
  /-- A table word that is neither a header word, nor the first byte of a BAT section, nor empty. -/
  | noSuchTableWord
  deriving DecidableEq, Repr

/-- The instruction an encoding stands for; `collecting` says whether `fsm` is Collecting. -/
def decode (targetPid : Half) (collecting : Bool) : Encoded → Except DecodeReject Instr
  | .block bytes => .ok (decodeBlock targetPid bytes)
  | .payload isStart bytes => .ok (decodePayload collecting isStart bytes)
  | .delivery bytes => .ok (.secDeliver bytes)
  | .sectionBuffer bytes => .ok (.sectionDecode bytes)
  | .span bytes => .ok (.descParse bytes)
  | .decoded none => .ok .mergeAbsent
  | .decoded (some _) => .error .selectedByStore
  | .transaction (.pkt block) => .ok (.pkt block)
  | .transaction .reset => .ok .reset
  | .transaction (.read key) => .ok (.read key)

/-- Does the state of the reassembler select this instruction's encoding? Only SEC.APPEND and SEC.IGNORE share one. -/
def Instr.selectedBy (collecting : Bool) : Instr → Bool
  | .secAppend _ => collecting
  | .secIgnore _ => !collecting
  | _ => true

/-! ### Table words -/

/-- The four header bytes of a table word: R98's `W` has `PKT[0]` in bits 31:24. -/
def wordBytes (w : Nat) : List Byte :=
  let v := BitVec.ofNat 32 w
  [v.extractLsb' 24 8, v.extractLsb' 16 8, v.extractLsb' 8 8, v.extractLsb' 0 8]

/-- The block a 32-bit table word stands for: the header it is and 184 zero bytes. -/
def wordBlock (w : Nat) : List Byte := wordBytes w ++ List.replicate 184 0#8

/-- The section bytes an 8-bit table word stands for: the section's first byte and zeros, as many as a start payload
with pointer field 0 carries (183 in all; log entry 8). -/
def wordSection (w : Nat) : List Byte := BitVec.ofNat 8 w :: List.replicate 182 0#8

/-- The instruction of a table word, or why there is none. 32 bits are a header word (R98); 8 bits are the first byte
of the buffer SECTION.DECODE takes, which its row fixes at 0x4A; 0 bits are the empty block. -/
def decodeTableWordE (nbits w : Nat) : Except DecodeReject Instr :=
  if nbits = 32 then .ok (decodeBlock batPid (wordBlock w))
  else if nbits = 8 then
    if BitVec.ofNat 8 w = batTableId then .ok (.sectionDecode (wordSection w)) else .error .noSuchTableWord
  else if nbits = 0 then .ok (decodeBlock batPid [])
  else .error .noSuchTableWord

/-- The instruction the decoder reads from a table word. -/
def decodeTableWord (nbits w : Nat) : Option Instr :=
  match decodeTableWordE nbits w with
  | .ok i => some i
  | .error _ => none

/-- The host operation that presents a table word to the block. A header word is presented as its block. A section
byte cannot be presented alone (spec/45_block_operations.md R282 has no such operation): it goes in a start packet on
the instance's PID with pointer field 0, whose step seeds the buffer with exactly `wordSection w`. -/
def tableWordOp (targetPid : Half) (nbits w : Nat) : HostOp :=
  if nbits = 32 then .pkt (wordBlock w)
  else if nbits = 8 then
    .pkt (encodePacket { tei := false, prio := false, sc := 0#2, cc := 0#4 } true (targetPid.setWidth 13) 1#2
      (0#8 :: wordSection w))
  else .pkt []

end Sys2Proof
end

