-- ==== Sys2Proof/Machine/State.lean ====
section
/-! DEFINITION. The state of one instance of the block (spec/10_state.md R23), the values its operations report
(spec/45_block_operations.md R286, spec/60_exceptions.md R302), and the state after reset (spec/10_state.md R43). -/

namespace Sys2Proof.Machine

/-! ### Events (spec/60_exceptions.md R302): values of a step result, never state (R303) -/

/-- The twenty events, each with the values R302 says it records. -/
inductive Event where
  /-- 0x01 `FRAME_LEN`: the block's length. -/
  | frameLen (length : Nat)
  /-- 0x02 `FRAME_SYNC`: byte 0. -/
  | frameSync (first : Byte)
  /-- 0x03 `PID_MISMATCH`: the PID. -/
  | pidMismatch (pid : BitVec 13)
  /-- 0x04 `NO_PAYLOAD`: the AFC value. -/
  | noPayload (afc : BitVec 2)
  /-- 0x05 `AF_OVERRUN`: PKT[4]. -/
  | afOverrun (afLen : Byte)
  /-- 0x10 `START_PTR_OVERRUN`: `ptr`, length of the payload. -/
  | startPtrOverrun (ptr : Byte) (length : Nat)
  /-- 0x11 `START_NOT_BAT`: the byte at the pointer target. -/
  | startNotBat (found : Byte)
  /-- 0x12 `START_HDR_SHORT`: how many section bytes are in the payload. -/
  | startHdrShort (available : Nat)
  /-- 0x13 `CONT_IDLE`. -/
  | contIdle
  /-- 0x14 `INCOMPLETE_DROPPED`: length of `SB` and `expected_length` before the drop. -/
  | incompleteDropped (length expected : Nat)
  /-- 0x20 `DEC_SHORT`: the buffer's length. -/
  | decShort (length : Nat)
  /-- 0x21 `DEC_TABLE_ID`: byte 0 of the buffer. -/
  | decTableId (found : Byte)
  /-- 0x22 `DEC_LENGTH`: the buffer's length and `3 + section_length` (log entry 9). -/
  | decLength (length needed : Nat)
  /-- 0x23 `SEC_SHORT`: `E`. -/
  | secShort (bound : Nat)
  /-- 0x24 `LOOP_CLAMP`: the declared end and `E`. -/
  | loopClamp (declaredEnd bound : Nat)
  /-- 0x25 `TSLOOP_TRUNC`: the offset `q`. -/
  | tsLoopTrunc (q : Nat)
  /-- 0x26 `DESC_TRUNC`: the offset `pos` within the span. -/
  | descTrunc (pos : Nat)
  /-- 0x30 `DUP_SECTION`: `bouquet_id`, `section_number`. -/
  | dupSection (bouquetId : Half) (sectionNumber : Byte)
  /-- 0x31 `SECNUM_RANGE`: `bouquet_id`, `section_number`, the governing last section number. -/
  | secnumRange (bouquetId : Half) (sectionNumber last : Byte)
  /-- 0x32 `STORE_OVF`: `bouquet_id`. -/
  | storeOvf (bouquetId : Half)
  deriving DecidableEq, Repr

/-! ### The store (spec/10_state.md R30 to R38) -/

/-- A BouquetRecord (R31): the record of the bouquet `bouquetId`, which is also its key. -/
structure BouquetRecord where
  bouquetId          : Half
  versionNumber      : BitVec 5
  lastSectionNumber  : Byte
  /-- Bit `i` is set iff a section with `section_number = i` has been merged (R31, R32). -/
  seenSections       : BitVec 256
  bouquetDescriptors : List Descriptor
  transportStreams   : List TransportStream
  complete           : Bool
  deriving DecidableEq, Repr

/-- The aggregate store (R30): the map from `bouquet_id` to record, as a list of records in one canonical form, the
keys strictly rising (`Store.wf`), so that equal maps are equal lists and no creation order is kept. -/
abbrev Store := List BouquetRecord

/-- The canonical form of the store: keys strictly rising, hence unique (R30). -/
abbrev Store.wf (store : Store) : Prop := store.Pairwise fun a b => a.bouquetId.toNat < b.bouquetId.toNat

/-! ### The reassembler (spec/10_state.md R24 to R28) -/

/-- `fsm`, `expected_length` and `SB` as the sum type of R23: the two registers exist only while Collecting (R25,
R26). -/
inductive Reassembler where
  | idle
  | collecting (expectedLength : Nat) (sb : List Byte)
  deriving DecidableEq, Repr

/-! ### What an operation reports -/

/-- `demux` of the step result (spec/45_block_operations.md R286). -/
inductive DemuxReport where
  | none (ev : Event)
  | payload (length : Nat) (isStart : Bool)
  deriving DecidableEq, Repr

/-- `reasm` of the step result (R286). -/
inductive ReasmAction where
  | notInvoked
  | begin
  | skip (ev : Event)
  | append
  | ignore
  deriving DecidableEq, Repr

/-- `decode` of a delivery (R286): the Section Decoder's result. -/
inductive DecodeResult where
  | fail (ev : Event)
  | ok (sec : BATSection)
  deriving DecidableEq, Repr

/-- `merge` of a delivery (R286, spec/44_bouquet_aggregator.md R254). -/
inductive MergeOutcome where
  | absent
  | created (bouquetId : Half) (complete : Bool)
  | merged (bouquetId : Half) (complete : Bool)
  | duplicate (bouquetId : Half) (complete : Bool)
  | range (bouquetId : Half)
  | overflow (bouquetId : Half)
  deriving DecidableEq, Repr

/-- One delivery of the step result (R286). -/
structure Delivery where
  decode : DecodeResult
  merge  : MergeOutcome
  deriving DecidableEq, Repr

/-- What one invocation of the reassembler reports: the last three components of the step result (R286). -/
structure ReasmReport where
  action    : ReasmAction
  delivered : List Delivery
  events    : List Event
  deriving DecidableEq, Repr

/-- The step result of a PKT (R286). -/
structure StepResult where
  demux     : DemuxReport
  reasm     : ReasmAction
  delivered : List Delivery
  events    : List Event
  deriving DecidableEq, Repr

/-- The status values a host may read between steps (spec/10_state.md R40, spec/45_block_operations.md R292).
`expectedLength` and `sbLength` exist only while Collecting (log entry 4). -/
structure Status where
  targetPid      : Half
  tableId        : Byte
  /-- Idle = 0, Collecting = 1 (R40). -/
  fsm            : BitVec 1
  expectedLength : Option Nat
  sbLength       : Option Nat
  storeOvf       : Bool
  deriving DecidableEq, Repr

/-- The value of a READ (R292): one record if there is one, or all of them. -/
inductive ReadValue where
  | record (found : Option BouquetRecord)
  | all (records : List BouquetRecord)
  deriving DecidableEq, Repr

/-- What the last operation returned (log entry 2): a step result for a PKT, a value and the status for a READ, nothing
for RESET, and for a component's operation run by itself the result its own contract states. -/
inductive Output where
  | nothing
  | step (r : StepResult)
  | read (value : ReadValue) (status : Status)
  | reasm (r : ReasmReport)
  | delivery (d : Delivery) (events : List Event)
  | decoded (d : DecodeResult) (events : List Event)
  | parsed (descriptors : List Descriptor) (bytesConsumed : Nat) (events : List Event)
  | merged (outcome : MergeOutcome) (events : List Event)
  deriving DecidableEq, Repr

/-! ### The state -/

/-- One instance of the block, with the operations its host will present and the result of the last one. -/
structure State where
  /-- The instance's parameters (spec/00_scope.md R7), `TARGET_PID` among them: constant (log entry 3). -/
  params : Params
  /-- S1 to S3 of spec/10_state.md R23. -/
  reasm : Reassembler
  /-- S4: the aggregate store. -/
  store : Store
  /-- S5: `STORE_OVF`, sticky. -/
  storeOvf : Bool
  /-- The model's own: the operations the host will present, the next one first (log entry 1). -/
  input : List HostOp
  /-- The model's own: what the last operation returned (log entry 2). -/
  output : Output
  deriving DecidableEq, Repr

/-- Reasons for which a step stops with a fault: there is none ("the block has no fault", spec/60_exceptions.md R308;
"No condition is fatal", R300), so this type has no constructor. -/
inductive Fault where
  deriving DecidableEq, Repr

/-- Reasons for which an instruction is refused. -/
inductive Refusal where
  /-- The instruction has no meaning yet. Raised by no arm of `exec`: every row of the table has its meaning. Safe. -/
  | notModelled (mnemonic : String)
  deriving DecidableEq, Repr

/-- The block after power-up or RESET (spec/10_state.md R43): Idle, empty store, `STORE_OVF` 0, the default
parameters. Nothing is presented and nothing has been returned (log entries 1 and 2). -/
def State.reset : State :=
  { params := Params.default, reasm := .idle, store := [], storeOvf := false, input := [], output := .nothing }

end Sys2Proof.Machine
end

