-- ==== Sys2Proof/Machine/Flags.lean ====
section
/-! DEFINITION. The one-bit values of the block (spec/10_state.md R22): `is_start`, the seen bits, `complete`, the
condition that sets `STORE_OVF`; and the codes and classes of events (spec/60_exceptions.md R301, R302). There are no
condition codes (R22). -/

namespace Sys2Proof.Machine

/-- `is_start` (spec/40_packet_demux.md R129): bit 0x40 of byte 1. -/
def isStartFlag (byte1 : Byte) : Bool := (byte1 &&& 0x40#8) != 0#8

/-- `seen_sections[n]` (spec/10_state.md R31). -/
def seenBit (seen : BitVec 256) (n : Byte) : Bool := seen.getLsbD n.toNat

/-- `seen_sections[n] <- true` (spec/44_bouquet_aggregator.md R244, R247). -/
def markSeen (seen : BitVec 256) (n : Byte) : BitVec 256 := seen ||| (1#256 <<< n.toNat)

/-- `complete` (spec/44_bouquet_aggregator.md R252): every bit 0 to `last` is set. -/
def completeFlag (seen : BitVec 256) (last : Byte) : Bool :=
  (List.range (last.toNat + 1)).all fun i => seen.getLsbD i

/-- A count above a finite capacity; an unbounded capacity is never exceeded (spec/00_scope.md R7). -/
def exceeds (count : Nat) : Option Nat → Bool
  | none => false
  | some cap => decide (cap < count)

/-- The bytes a descriptor list counts for `CAP_DESC_BYTES`: the sum of `2 + len(d.data)`
(spec/44_bouquet_aggregator.md R255). -/
def descriptorBytes (ds : List Descriptor) : Nat := (ds.map fun d => 2 + d.data.length).sum

/-- The descriptor bytes of a record: its own list and every entry's (R255). -/
def recordDescriptorBytes (r : BouquetRecord) : Nat :=
  descriptorBytes r.bouquetDescriptors + (r.transportStreams.map fun t => descriptorBytes t.descriptors).sum

/-- Does the record a merge would produce exceed a per-record capacity (R255)? -/
def recordExceeds (p : Params) (r : BouquetRecord) : Bool :=
  exceeds r.transportStreams.length p.capTs || exceeds (recordDescriptorBytes r) p.capDescBytes

/-- The code of an event (spec/60_exceptions.md R302). -/
def Event.code : Event → Byte
  | .frameLen _ => 0x01#8
  | .frameSync _ => 0x02#8
  | .pidMismatch _ => 0x03#8
  | .noPayload _ => 0x04#8
  | .afOverrun _ => 0x05#8
  | .startPtrOverrun _ _ => 0x10#8
  | .startNotBat _ => 0x11#8
  | .startHdrShort _ => 0x12#8
  | .contIdle => 0x13#8
  | .incompleteDropped _ _ => 0x14#8
  | .decShort _ => 0x20#8
  | .decTableId _ => 0x21#8
  | .decLength _ _ => 0x22#8
  | .secShort _ => 0x23#8
  | .loopClamp _ _ => 0x24#8
  | .tsLoopTrunc _ => 0x25#8
  | .descTrunc _ => 0x26#8
  | .dupSection _ _ => 0x30#8
  | .secnumRange _ _ _ => 0x31#8
  | .storeOvf _ => 0x32#8

/-- The classes of R301 and R302. -/
inductive EventClass where
  | framing
  | malformedHeader
  | truncation
  | duplicate
  | info
  /-- `spec (D<n>)`: a condition that only decision `D<n>` creates. -/
  | spec (decision : Nat)
  deriving DecidableEq, Repr

/-- The classes of an event, in the order of R302's third column: two of them have two. -/
def Event.errorClasses : Event → List EventClass
  | .frameLen _ | .frameSync _ | .pidMismatch _ | .noPayload _ | .afOverrun _ => [.framing]
  | .startNotBat _ | .decShort _ | .decTableId _ | .decLength _ _ => [.malformedHeader]
  | .tsLoopTrunc _ | .descTrunc _ => [.truncation]
  | .secShort _ => [.truncation, .spec 12]
  | .loopClamp _ _ => [.truncation, .spec 13]
  | .dupSection _ _ => [.duplicate]
  | .contIdle | .incompleteDropped _ _ => [.info]
  | .startPtrOverrun _ _ | .startHdrShort _ => [.spec 7]
  | .secnumRange _ _ _ => [.spec 15]
  | .storeOvf _ => [.spec 19]

end Sys2Proof.Machine
end

