-- ==== Sys2Proof/Machine/Operands.lean ====
section
/-! DEFINITION. Operand forms: reads of a byte sequence (spec/00_scope.md R12, spec/20_memory.md R60, R64), and the
fields the formats of spec/30_encoding.md assemble from bytes. Every read takes the proof that its index lies inside
the sequence, so each rule that reads discharges the bound from its own guard (spec/20_memory.md R66). -/

namespace Sys2Proof.Machine

/-! ### The primitives of spec/00_scope.md R12 -/

/-- `s[i]` (R12), for an index inside the sequence (R66). -/
def readByte (bytes : List Byte) (i : Nat) (inside : i < bytes.length) : Byte := bytes[i]

/-- `s[a..b]` (R12). -/
def slice (bytes : List Byte) (a b : Nat) : List Byte := (bytes.take b).drop a

/-- `be16(s, i)` (R12): big-endian (R60). -/
def be16 (bytes : List Byte) (i : Nat) (inside : i + 1 < bytes.length) : Half :=
  ((readByte bytes i (Nat.lt_of_succ_lt inside)).setWidth 16 <<< 8) ||| (readByte bytes (i + 1) inside).setWidth 16

/-- `len12(s, i)` (R12): 0 to 4095. -/
def len12 (bytes : List Byte) (i : Nat) (inside : i + 1 < bytes.length) : Nat :=
  (((readByte bytes i (Nat.lt_of_succ_lt inside) &&& 0x0F#8).setWidth 12 <<< 8) |||
    (readByte bytes (i + 1) inside).setWidth 12).toNat

/-! ### Packet header (spec/40_packet_demux.md R122, R124 to R129) -/

/-- A block that has passed the length test of R122 has every byte below `PACKET_SIZE`. -/
theorem inPacket {block : List Byte} {i : Nat} (full : block.length = packetSize) (small : i < packetSize) :
    i < block.length := full ▸ small

/-- The PID of a packet (R124). -/
def pidOf (block : List Byte) (full : block.length = packetSize) : BitVec 13 :=
  ((readByte block 1 (inPacket full (by decide)) &&& 0x1F#8).setWidth 13 <<< 8) |||
    (readByte block 2 (inPacket full (by decide))).setWidth 13

/-- The adaptation-field-control of a packet (R126). -/
def afcOf (block : List Byte) (full : block.length = packetSize) : BitVec 2 :=
  ((readByte block 3 (inPacket full (by decide)) >>> 4) &&& 3#8).setWidth 2

/-- The payload offset when an adaptation field of `afLen` bytes precedes the payload (R127): 5 to 260. -/
def afPayloadOffset (afLen : Byte) : Nat := 4 + 1 + afLen.toNat

/-! ### Start payload (spec/30_encoding.md R86, R87) -/

/-- The offset of the new section in a start payload whose pointer field is `ptr` (R87): counted from the byte after
the pointer field. -/
def sectionOffset (ptr : Byte) : Nat := 1 + ptr.toNat

/-! ### Section header (spec/30_encoding.md R88 to R90, spec/42_section_decoder.md R173 to R176) -/

/-- `section_length` (R89). -/
def sectionLength (buffer : List Byte) (header : 3 ≤ buffer.length) : Nat := len12 buffer 1 header

/-- `expected_length = 3 + section_length` (spec/43_section_reassembler.md R208), also the parse bound `E`
(spec/42_section_decoder.md R175). -/
def expectedLengthOf (buffer : List Byte) (header : 3 ≤ buffer.length) : Nat := 3 + sectionLength buffer header

/-- `version_number` (R89). -/
def versionNumberOf (buffer : List Byte) (inside : 5 < buffer.length) : BitVec 5 :=
  ((readByte buffer 5 inside >>> 1) &&& 0x1F#8).setWidth 5

/-- `bdl`, the bouquet descriptor loop length (R89). -/
def bouquetLoopLength (buffer : List Byte) (inside : 10 ≤ buffer.length) : Nat := len12 buffer 8 inside

/-- `tsl`, the transport-stream loop length at `p`, masked like the other lengths (R90). -/
def tsLoopLength (buffer : List Byte) (p : Nat) (inside : p + 2 ≤ buffer.length) : Nat := len12 buffer p inside

end Sys2Proof.Machine
end

