-- ==== Sys2Proof/Machine/Ops.lean ====
section
/-! DEFINITION. The named operations over the state: the two writes of the section buffer (spec/20_memory.md R67), the
store as a map (spec/10_state.md R30), the host's port. The block takes no exception and returns from none
(spec/60_exceptions.md R305 to R307): what an error does is the local recovery its rule states and an event in the
report, so there is no shared operation of exception entry. -/

namespace Sys2Proof.Machine

/-- What an instruction's meaning answers. -/
abbrev Answer := Host.Outcome State Fault Refusal

/-! ### One home for each register -/

/-- Write `fsm`, `expected_length` and `SB` together (spec/10_state.md R23). -/
def State.withReasm (s : State) (r : Reassembler) : State := { s with reasm := r }

/-- Write the store. -/
def State.withStore (s : State) (store : Store) : State := { s with store := store }

/-- Write `STORE_OVF`. -/
def State.withStoreOvf (s : State) (flag : Bool) : State := { s with storeOvf := flag }

/-- Write the result port (log entry 2). -/
def State.withOutput (s : State) (o : Output) : State := { s with output := o }

/-- Write the queue of operations to be presented (log entry 1). -/
def State.withInput (s : State) (ops : List HostOp) : State := { s with input := ops }

/-- The step of an operation completes (spec/45_block_operations.md R281): its result is put out and it answers. -/
def finish (s : State) (o : Output) : Answer := .next (s.withOutput o)

/-- The next operation the host presents, and the state with it taken from the queue. -/
def fetchOp (s : State) : Option (HostOp × State) :=
  match s.input with
  | [] => none
  | op :: rest => some (op, s.withInput rest)

/-! ### The section buffer -/

/-- Is a section being collected? -/
def collectingFlag (s : State) : Bool :=
  match s.reasm with
  | .idle => false
  | .collecting _ _ => true

/-- `fsm <- Idle`; `expected_length` and `SB` are dead (spec/20_memory.md R67). -/
def setIdle (s : State) : State := s.withReasm .idle

/-- The section bytes a start payload seeds the buffer with: the three header bytes are among them
(spec/43_section_reassembler.md R207, R208). -/
structure Seed where
  bytes  : List Byte
  header : 3 ≤ bytes.length

/-- The seed (spec/43_section_reassembler.md R208, R209): `SB` becomes a copy of the new section's bytes. -/
def seedBuffer (seed : Seed) (s : State) : State :=
  s.withReasm (.collecting (expectedLengthOf seed.bytes seed.header) seed.bytes)

/-- The event of a start packet that ends an unfinished collection (spec/43_section_reassembler.md R222). -/
def droppedEvents (s : State) : List Event :=
  match s.reasm with
  | .idle => []
  | .collecting expected sb => [.incompleteDropped sb.length expected]

/-! ### The store -/

/-- The record of a key (spec/44_bouquet_aggregator.md R243). -/
def Store.lookup (store : Store) (key : Half) : Option BouquetRecord :=
  store.find? fun r => r.bouquetId == key

/-- `store[r.bouquet_id] <- r`: replaces the record of that key or puts the record in the place its key has in the
canonical form. -/
def Store.put : Store → BouquetRecord → Store
  | [], r => [r]
  | x :: rest, r =>
    if r.bouquetId.toNat < x.bouquetId.toNat then r :: x :: rest
    else if r.bouquetId = x.bouquetId then r :: rest
    else x :: Store.put rest r

/-! ### What the host reads between steps -/

/-- The status values of spec/10_state.md R40. -/
def statusOf (s : State) : Status :=
  { targetPid := s.params.targetPid
    tableId := batTableId
    fsm := BitVec.ofBool (collectingFlag s)
    expectedLength := match s.reasm with
      | .idle => none
      | .collecting expected _ => some expected
    sbLength := match s.reasm with
      | .idle => none
      | .collecting _ sb => some sb.length
    storeOvf := s.storeOvf }

end Sys2Proof.Machine
end

