-- ==== Sys2Proof/Machine/Descriptor.lean ====
section
/-! DEFINITION. The Descriptor Codec (spec/41_descriptor_codec.md): DESC.PARSE. -/

namespace Sys2Proof.Machine

/-- What `parse_descriptors` returns: the list and `bytes_consumed` (R150). -/
structure Parsed where
  descriptors : List Descriptor
  consumed    : Nat
  deriving DecidableEq, Repr

/-- The loop of R151 at cursor `pos`, `rest` being the bytes from the cursor on. An iteration consumes at least two
bytes (R157), so as many rounds as there are bytes are enough. -/
def parseLoop : Nat → List Byte → Nat → Parsed
  | fuel + 1, tag :: len :: tail, pos =>
    if len.toNat ≤ tail.length then
      let more := parseLoop fuel (tail.drop len.toNat) (pos + 2 + len.toNat)
      { descriptors := { tag := tag, data := tail.take len.toNat } :: more.descriptors, consumed := more.consumed }
    else { descriptors := [], consumed := pos }
  | _, _, pos => { descriptors := [], consumed := pos }

/-- `parse_descriptors(data)` (R151). -/
def parseDescriptors (data : List Byte) : Parsed := parseLoop data.length data 0

/-- The event of a parse that stops before the end of its span (R150, R154). -/
def parseEvents (data : List Byte) : List Event :=
  let consumed := (parseDescriptors data).consumed
  if consumed < data.length then [.descTrunc consumed] else []

/-- DESC.PARSE (R150): pure; the state is only given the result to put out. -/
def execDescParse (data : List Byte) (s : State) : Answer :=
  let p := parseDescriptors data
  finish s (.parsed p.descriptors p.consumed (parseEvents data))

end Sys2Proof.Machine
end

