-- ==== Sys2Proof/Machine/Section.lean ====
section
/-! DEFINITION. The Section Decoder (spec/42_section_decoder.md): SECTION.DECODE. -/

namespace Sys2Proof.Machine

/-- What the transport-stream loop yields: its entries, the cursor `q` where it stops, the codec's events. -/
structure EntryLoop where
  entries : List TransportStream
  stop    : Nat
  events  : List Event
  deriving DecidableEq, Repr

/-- The loop of R182 to R184 at cursor `q`, `rest` being the loop's bytes from the cursor to `ts_end`. An iteration
consumes at least six bytes (R197), so as many rounds as there are bytes are enough. -/
def entryLoop : Nat → List Byte → Nat → EntryLoop
  | 0, _, q => { entries := [], stop := q, events := [] }
  | fuel + 1, rest, q =>
    if header : tsEntryHeader ≤ rest.length then
      let dl := len12 rest 4 (Nat.lt_of_lt_of_le (by decide) header)
      if tsEntryHeader + dl ≤ rest.length then
        let span := slice rest tsEntryHeader (tsEntryHeader + dl)
        let more := entryLoop fuel (rest.drop (tsEntryHeader + dl)) (q + tsEntryHeader + dl)
        { entries :=
            { transportStreamId := be16 rest 0 (Nat.lt_of_lt_of_le (by decide) header)
              originalNetworkId := be16 rest 2 (Nat.lt_of_lt_of_le (by decide) header)
              descriptors := (parseDescriptors span).descriptors } :: more.entries
          stop := more.stop
          events := parseEvents span ++ more.events }
      else { entries := [], stop := q, events := [] }
    else { entries := [], stop := q, events := [] }

/-- What the transport-stream loop with its length header yields: entries and events. -/
structure TransportLoop where
  entries : List TransportStream
  events  : List Event
  deriving DecidableEq, Repr

/-- Both loops of a section and the events their parse raises, in the order of R188. -/
structure Loops where
  bouquetDescriptors : List Descriptor
  transportStreams   : List TransportStream
  events             : List Event
  deriving DecidableEq, Repr

/-- `LOOP_CLAMP` for a loop whose declared end passes the bound (R178, R181). -/
def clampEvents (declaredEnd bound : Nat) : List Event :=
  if bound < declaredEnd then [.loopClamp declaredEnd bound] else []

/-- The transport-stream loop whose length header is at `p` (R180 to R185), the bound being within the buffer. -/
def transportLoop (buffer : List Byte) (bound p : Nat) (within : bound ≤ buffer.length) : TransportLoop :=
  if short : bound < p + 2 then { entries := [], events := [.secShort bound] }
  else
    let declaredEnd := p + 2 + tsLoopLength buffer p (Nat.le_trans (Nat.not_lt.mp short) within)
    let tsEnd := min declaredEnd bound
    let span := slice buffer (p + 2) tsEnd
    let l := entryLoop span.length span (p + 2)
    { entries := l.entries
      events := clampEvents declaredEnd bound ++ l.events ++ (if l.stop < tsEnd then [.tsLoopTrunc l.stop] else []) }

/-- Both loops of a section bounded by `E` (R177 to R185), which R174 has found to be within the buffer. -/
def sectionLoops (buffer : List Byte) (bound : Nat) (within : bound ≤ buffer.length) : Loops :=
  if short : bound < 10 then { bouquetDescriptors := [], transportStreams := [], events := [.secShort bound] }
  else
    let p := 10 + bouquetLoopLength buffer (Nat.le_trans (Nat.not_lt.mp short) within)
    let span := slice buffer 10 (min p bound)
    let ts := transportLoop buffer bound p within
    { bouquetDescriptors := (parseDescriptors span).descriptors
      transportStreams := ts.entries
      events := clampEvents p bound ++ parseEvents span ++ ts.events }

/-- What `decode_section` returns and the events it raises. -/
structure Decoded where
  result : DecodeResult
  events : List Event
  deriving DecidableEq, Repr

/-- A failure raises its one event (R187). -/
def decodeFails (ev : Event) : Decoded := { result := .fail ev, events := [ev] }

/-- A buffer that has passed the length test of R171 has every byte of the fixed header. -/
theorem inHeader {buffer : List Byte} {n : Nat} (long : ¬ buffer.length < sectionHeaderMin)
    (small : n ≤ sectionHeaderMin) : n ≤ buffer.length := Nat.le_trans small (Nat.not_lt.mp long)

/-- `decode_section(buffer)` (R188). -/
def decodeSection (buffer : List Byte) : Decoded :=
  if short : buffer.length < sectionHeaderMin then decodeFails (.decShort buffer.length)
  else
    let tableId := readByte buffer 0 (inHeader short (by decide))
    let bound := expectedLengthOf buffer (inHeader short (by decide))
    if tableId ≠ batTableId then decodeFails (.decTableId tableId)
    else if exceeded : buffer.length < bound then decodeFails (.decLength buffer.length bound)
    else
      let l := sectionLoops buffer bound (Nat.not_lt.mp exceeded)
      { result := .ok
          { bouquetId := be16 buffer 3 (inHeader short (by decide))
            versionNumber := versionNumberOf buffer (inHeader short (by decide))
            sectionNumber := readByte buffer 6 (inHeader short (by decide))
            lastSectionNumber := readByte buffer 7 (inHeader short (by decide))
            bouquetDescriptors := l.bouquetDescriptors
            transportStreams := l.transportStreams }
        events := l.events }

/-- `some section` or `none` (R170), as the aggregator is handed it. -/
def DecodeResult.toOption : DecodeResult → Option BATSection
  | .fail _ => none
  | .ok sec => some sec

/-- SECTION.DECODE (R170): pure; the state is only given the result to put out. -/
def execSectionDecode (buffer : List Byte) (s : State) : Answer :=
  let d := decodeSection buffer
  finish s (.decoded d.result d.events)

end Sys2Proof.Machine
end

