-- ==== Sys2Proof/Machine/Aggregator.lean ====
section
/-! DEFINITION. The Bouquet Aggregator (spec/44_bouquet_aggregator.md): the six MERGE operations and the whole
algorithm `merge` (R262) that chooses among them. -/

namespace Sys2Proof.Machine

/-- What a merge leaves: the state, the outcome it returns (R254), the events it raises. -/
structure MergeStep where
  state   : State
  outcome : MergeOutcome
  events  : List Event
  deriving DecidableEq, Repr

/-! ### The record a merge produces -/

/-- The record a creating section makes (R244, R252): its lists taken over as they are. -/
def createdRecord (sec : BATSection) : BouquetRecord :=
  let seen := markSeen 0#256 sec.sectionNumber
  { bouquetId := sec.bouquetId
    versionNumber := sec.versionNumber
    lastSectionNumber := sec.lastSectionNumber
    seenSections := seen
    bouquetDescriptors := sec.bouquetDescriptors
    transportStreams := sec.transportStreams
    complete := completeFlag seen sec.lastSectionNumber }

/-- Merge one transport-stream entry: the first entry with its id is extended and keeps its place and its
`original_network_id` (R250); with no such entry it is added at the end (R251). -/
def mergeEntry : List TransportStream → TransportStream → List TransportStream
  | [], t => [t]
  | e :: rest, t =>
    if e.transportStreamId = t.transportStreamId then
      { e with descriptors := e.descriptors ++ t.descriptors } :: rest
    else e :: mergeEntry rest t

/-- Merge a section's entries in wire order (R247): entries added earlier count as present (R250). -/
def mergeEntries (present new : List TransportStream) : List TransportStream := new.foldl mergeEntry present

/-- The record after merging a section of a new number (R247, R249, R252): `version_number` and
`last_section_number` stay (R253; log entry 11). -/
def mergedRecord (r : BouquetRecord) (sec : BATSection) : BouquetRecord :=
  let seen := markSeen r.seenSections sec.sectionNumber
  { r with
    seenSections := seen
    bouquetDescriptors := r.bouquetDescriptors ++ sec.bouquetDescriptors
    transportStreams := mergeEntries r.transportStreams sec.transportStreams
    complete := completeFlag seen r.lastSectionNumber }

/-! ### Which operation a section runs -/

/-- The six operations of the operation table. -/
inductive MergeClass where
  | absent
  | range
  | dup
  | ovf
  | create
  | new
  deriving DecidableEq, Repr

/-- Would creating this section's record exceed a capacity (R255)? -/
def createOverflows (sec : BATSection) (s : State) : Bool :=
  exceeds (s.store.length + 1) s.params.capBouquets || recordExceeds s.params (createdRecord sec)

/-- Would merging this section into a record exceed a capacity (R255)? -/
def mergeOverflows (r : BouquetRecord) (sec : BATSection) (s : State) : Bool :=
  recordExceeds s.params (mergedRecord r sec)

/-- The governing last section number (R242): the record's if there is one, else the section's own. -/
def governingLast (sec : BATSection) (s : State) : Byte :=
  match s.store.lookup sec.bouquetId with
  | some r => r.lastSectionNumber
  | none => sec.lastSectionNumber

/-- The tests in the order of R262: absent, range, duplicate, capacity, then create or new. -/
def mergeClass (decoded : Option BATSection) (s : State) : MergeClass :=
  match decoded with
  | none => .absent
  | some sec =>
    if (governingLast sec s).toNat < sec.sectionNumber.toNat then .range
    else
      match s.store.lookup sec.bouquetId with
      | none => if createOverflows sec s then .ovf else .create
      | some r =>
        if seenBit r.seenSections sec.sectionNumber then .dup
        else if mergeOverflows r sec s then .ovf
        else .new

/-- The operation the aggregator runs on what the decoder hands it: the third level of the operation map
(spec/30_encoding.md R99). -/
def selectMerge (decoded : Option BATSection) (s : State) : Instr :=
  match decoded with
  | none => .mergeAbsent
  | some sec =>
    match mergeClass (some sec) s with
    | .absent => .mergeAbsent
    | .range => .mergeRange sec
    | .dup => .mergeDup sec
    | .ovf => .mergeOvf sec
    | .create => .mergeCreate sec
    | .new => .mergeNew sec

/-! ### The effect of each -/

/-- MERGE.ABSENT (R241): a no-op. -/
def mergeAbsentEffect (s : State) : MergeStep := { state := s, outcome := .absent, events := [] }

/-- MERGE.RANGE (R242): the section is ignored. -/
def mergeRangeEffect (sec : BATSection) (s : State) : MergeStep :=
  { state := s, outcome := .range sec.bouquetId,
    events := [.secnumRange sec.bouquetId sec.sectionNumber (governingLast sec s)] }

/-- MERGE.DUP (R246): the section is ignored; the record's `complete` is reported as it stands. -/
def mergeDupEffect (sec : BATSection) (r : BouquetRecord) (s : State) : MergeStep :=
  { state := s, outcome := .duplicate sec.bouquetId r.complete,
    events := [.dupSection sec.bouquetId sec.sectionNumber] }

/-- MERGE.OVF (R255): the whole merge is refused and `STORE_OVF` is set. -/
def mergeOvfEffect (sec : BATSection) (s : State) : MergeStep :=
  { state := s.withStoreOvf true, outcome := .overflow sec.bouquetId, events := [.storeOvf sec.bouquetId] }

/-- MERGE.CREATE (R256): one new record. -/
def mergeCreateEffect (sec : BATSection) (s : State) : MergeStep :=
  let r := createdRecord sec
  { state := s.withStore (s.store.put r), outcome := .created sec.bouquetId r.complete, events := [] }

/-- MERGE.NEW (R257): the record `r` takes the section in. -/
def mergeNewEffect (sec : BATSection) (r : BouquetRecord) (s : State) : MergeStep :=
  let r' := mergedRecord r sec
  { state := s.withStore (s.store.put r'), outcome := .merged sec.bouquetId r'.complete, events := [] }

/-- `merge(r)` (R262): the tests in their order, each with its effect. -/
def merge (decoded : Option BATSection) (s : State) : MergeStep :=
  match decoded with
  | none => mergeAbsentEffect s
  | some sec =>
    if (governingLast sec s).toNat < sec.sectionNumber.toNat then mergeRangeEffect sec s
    else
      match s.store.lookup sec.bouquetId with
      | none => if createOverflows sec s then mergeOvfEffect sec s else mergeCreateEffect sec s
      | some r =>
        if seenBit r.seenSections sec.sectionNumber then mergeDupEffect sec r s
        else if mergeOverflows r sec s then mergeOvfEffect sec s
        else mergeNewEffect sec r s

/-! ### The operations by themselves

A section in a state that selects another operation is handed to `merge`, which runs the one selected (log entry 5). -/

/-- Put out what a merge reports. -/
def finishMerge (m : MergeStep) : Answer := finish m.state (.merged m.outcome m.events)

/-- MERGE.CREATE (R256). -/
def execMergeCreate (sec : BATSection) (s : State) : Answer :=
  if mergeClass (some sec) s = .create then finishMerge (mergeCreateEffect sec s) else finishMerge (merge (some sec) s)

/-- MERGE.NEW (R257). -/
def execMergeNew (sec : BATSection) (s : State) : Answer :=
  match mergeClass (some sec) s, s.store.lookup sec.bouquetId with
  | .new, some r => finishMerge (mergeNewEffect sec r s)
  | _, _ => finishMerge (merge (some sec) s)

/-- MERGE.DUP (R258). -/
def execMergeDup (sec : BATSection) (s : State) : Answer :=
  match mergeClass (some sec) s, s.store.lookup sec.bouquetId with
  | .dup, some r => finishMerge (mergeDupEffect sec r s)
  | _, _ => finishMerge (merge (some sec) s)

/-- MERGE.RANGE (R259). -/
def execMergeRange (sec : BATSection) (s : State) : Answer :=
  if mergeClass (some sec) s = .range then finishMerge (mergeRangeEffect sec s) else finishMerge (merge (some sec) s)

/-- MERGE.OVF (R260). -/
def execMergeOvf (sec : BATSection) (s : State) : Answer :=
  if mergeClass (some sec) s = .ovf then finishMerge (mergeOvfEffect sec s) else finishMerge (merge (some sec) s)

/-- MERGE.ABSENT (R261). -/
def execMergeAbsent (s : State) : Answer := finishMerge (mergeAbsentEffect s)

end Sys2Proof.Machine
end

