-- ==== Sys2Proof/Machine/Reassembler.lean ====
section
/-! DEFINITION. The Section Reassembler (spec/43_section_reassembler.md): SEC.BEGIN, SEC.SKIP, SEC.APPEND, SEC.IGNORE,
SEC.DELIVER and the whole algorithm `reassemble` (R227). -/

namespace Sys2Proof.Machine

/-! ### Delivery -/

/-- What a delivery leaves: the state, the delivery it reports, its events. -/
structure DeliverStep where
  state    : State
  delivery : Delivery
  events   : List Event
  deriving DecidableEq, Repr

/-- `deliver(buf)` (R214): decode, then merge. It writes what the aggregator writes; `fsm` is written by its callers
(R203, R212). -/
def deliver (buffer : List Byte) (s : State) : DeliverStep :=
  let d := decodeSection buffer
  let m := merge d.result.toOption s
  { state := m.state, delivery := { decode := d.result, merge := m.outcome }, events := d.events ++ m.events }

/-- SEC.DELIVER (R214). -/
def execSecDeliver (buffer : List Byte) (s : State) : Answer :=
  let d := deliver buffer s
  finish d.state (.delivery d.delivery d.events)

/-! ### The pieces of the algorithm -/

/-- What one invocation of the reassembler, or a piece of it, leaves. -/
structure ReasmStep where
  state     : State
  delivered : List Delivery
  events    : List Event
  deriving DecidableEq, Repr

/-- `if fsm = Collecting and len(SB) >= expected_length then (deliver(SB); fsm <- Idle)`: R203 at the head of the start
branch, R212 and R213 at the end of every invocation. -/
def completionCheck (s : State) : ReasmStep :=
  match s.reasm with
  | .idle => { state := s, delivered := [], events := [] }
  | .collecting expected sb =>
    if expected ≤ sb.length then
      let d := deliver sb s
      { state := setIdle d.state, delivered := [d.delivery], events := d.events }
    else { state := s, delivered := [], events := [] }

/-- What a start payload seeds the buffer with (R208), or why it starts no section: the first of R205, R206, R207 that
applies. An empty payload, which no packet yields (R200), has no pointer field to read (log entry 5). -/
def startSeed (payload : List Byte) : Except Event Seed :=
  if empty : payload.length = 0 then .error (.startPtrOverrun 0#8 0)
  else
    let ptr := readByte payload 0 (Nat.pos_of_ne_zero empty)
    let off := sectionOffset ptr
    if exceeded : payload.length ≤ off then .error (.startPtrOverrun ptr payload.length)
    else
      let found := readByte payload off (Nat.not_le.mp exceeded)
      if found ≠ batTableId then .error (.startNotBat found)
      else if short : payload.length - off < 3 then .error (.startHdrShort (payload.length - off))
      else .ok { bytes := payload.drop off, header := by rw [List.length_drop]; exact Nat.not_lt.mp short }

/-- What an invocation leaves and reports. -/
structure Invocation where
  state  : State
  report : ReasmReport
  deriving DecidableEq, Repr

/-- A start payload that seeds the buffer (R216): R203, R208, R209, R222, R212. -/
def beginSection (seed : Seed) (s : State) : Invocation :=
  let outgoing := completionCheck s
  let last := completionCheck (seedBuffer seed outgoing.state)
  { state := last.state
    report :=
      { action := .begin
        delivered := outgoing.delivered ++ last.delivered
        events := outgoing.events ++ droppedEvents outgoing.state ++ last.events } }

/-- A start payload that starts no section, for the reason `ev` (R217): R203, then `fsm <- Idle`, R222. -/
def skipStart (ev : Event) (s : State) : Invocation :=
  let outgoing := completionCheck s
  { state := setIdle outgoing.state
    report :=
      { action := .skip ev
        delivered := outgoing.delivered
        events := outgoing.events ++ [ev] ++ droppedEvents outgoing.state } }

/-- A start payload (R202, start branch). -/
def startPayload (payload : List Byte) (s : State) : Invocation :=
  match startSeed payload with
  | .error ev => skipStart ev s
  | .ok seed => beginSection seed s

/-- A continuation payload while Collecting (R218): R211, R212. -/
def appendPayload (expected : Nat) (sb payload : List Byte) (s : State) : Invocation :=
  let last := completionCheck (s.withReasm (.collecting expected (sb ++ payload)))
  { state := last.state
    report := { action := .append, delivered := last.delivered, events := last.events } }

/-- A continuation payload while Idle (R210). -/
def ignorePayload (s : State) : Invocation :=
  { state := s, report := { action := .ignore, delivered := [], events := [.contIdle] } }

/-- A continuation payload (R202, continuation branch). -/
def contPayload (payload : List Byte) (s : State) : Invocation :=
  match s.reasm with
  | .idle => ignorePayload s
  | .collecting expected sb => appendPayload expected sb payload s

/-- `reassemble(payload, is_start)` (R227). -/
def reassemble (payload : List Byte) (isStart : Bool) (s : State) : Invocation :=
  if isStart then startPayload payload s else contPayload payload s

/-! ### The operations by themselves -/

/-- Put out what an invocation reports. -/
def finishReasm (v : Invocation) : Answer := finish v.state (.reasm v.report)

/-- SEC.BEGIN (R216) on the payload its operands are written as (spec/30_encoding.md R86). Operands whose payload starts
no section are not this operation's: it is skipped (log entry 5). -/
def execSecBegin (ptr : Byte) (pre sec : List Byte) (s : State) : Answer :=
  match startSeed (ptr :: (pre ++ sec)) with
  | .ok seed => finishReasm (beginSection seed s)
  | .error ev => finishReasm (skipStart ev s)

/-- SEC.SKIP (R217). A payload that meets none of R205 to R207 is not this operation's: it starts a section
(log entry 5). -/
def execSecSkip (payload : List Byte) (s : State) : Answer :=
  match startSeed payload with
  | .error ev => finishReasm (skipStart ev s)
  | .ok seed => finishReasm (beginSection seed s)

/-- SEC.APPEND (R218). In Idle the continuation branch ignores the payload (R210, log entry 5). -/
def execSecAppend (payload : List Byte) (s : State) : Answer :=
  match s.reasm with
  | .collecting expected sb => finishReasm (appendPayload expected sb payload s)
  | .idle => finishReasm (contPayload payload s)

/-- SEC.IGNORE (R219). While Collecting the continuation branch appends the payload (R211, log entry 5). -/
def execSecIgnore (payload : List Byte) (s : State) : Answer :=
  match s.reasm with
  | .idle => finishReasm (ignorePayload s)
  | .collecting _ _ => finishReasm (contPayload payload s)

end Sys2Proof.Machine
end

