-- ==== Sys2Proof/Machine/Packet.lean ====
section
/-! DEFINITION. The Packet Demultiplexer (spec/40_packet_demux.md): the function `demux` (R132) and the nine packet
classes (R133 to R141). -/

namespace Sys2Proof.Machine

/-- What `demux` returns (R120): no payload and the event that says why, or a payload and `is_start`. -/
inductive Demux where
  | drop (ev : Event)
  | pass (payload : List Byte) (isStart : Bool)
  deriving DecidableEq, Repr

/-- The tests of R132 on a block of 188 bytes, the first failing one names the event (R131). -/
def demuxPacket (block : List Byte) (full : block.length = packetSize) (targetPid : Half) : Demux :=
  let sync := readByte block 0 (inPacket full (by decide))
  let pid := pidOf block full
  let afc := afcOf block full
  let afLen := readByte block 4 (inPacket full (by decide))
  if sync ≠ syncByte then .drop (.frameSync sync)
  else if pid.setWidth 16 ≠ targetPid then .drop (.pidMismatch pid)
  else if afc = 0#2 ∨ afc = 2#2 then .drop (.noPayload afc)
  else
    let off := if afc = 1#2 then 4 else afPayloadOffset afLen
    if packetSize ≤ off then .drop (.afOverrun afLen)
    else .pass (block.drop off) (isStartFlag (readByte block 1 (inPacket full (by decide))))

/-- `demux(PKT, TARGET_PID)` (R132): the tests in the source's order, the length first (R122). -/
def demux (block : List Byte) (targetPid : Half) : Demux :=
  if full : block.length = packetSize then demuxPacket block full targetPid
  else .drop (.frameLen block.length)

/-- A block without payload changes no state (R143, spec/43_section_reassembler.md R225). -/
def dropBlock (ev : Event) (s : State) : Answer :=
  finish s (.step { demux := .none ev, reasm := .notInvoked, delivered := [], events := [ev] })

/-- A payload goes to the reassembler (spec/45_block_operations.md R280); the step reports what became of it (R286). -/
def passPayload (payload : List Byte) (isStart : Bool) (s : State) : Answer :=
  let v := reassemble payload isStart s
  finish v.state
    (.step
      { demux := .payload payload.length isStart
        reasm := v.report.action
        delivered := v.report.delivered
        events := v.report.events })

/-- A packet with an adaptation field (R140, R141): `afLen` is PKT[4], `rest` is PKT[5..188]. -/
def passAfterField (afLen : Byte) (rest : List Byte) (isStart : Bool) (s : State) : Answer :=
  if packetSize ≤ afPayloadOffset afLen then dropBlock (.afOverrun afLen) s
  else passPayload (rest.drop afLen.toNat) isStart s

/-- PKT.BADLEN (R133). -/
def execPktBadLen (block : List Byte) (s : State) : Answer := dropBlock (.frameLen block.length) s

/-- PKT.BADSYNC (R134). -/
def execPktBadSync (first : Byte) (_rest : List Byte) (s : State) : Answer := dropBlock (.frameSync first) s

/-- PKT.OTHERPID (R135). -/
def execPktOtherPid (_bits : IgnoredBits) (_pusi : Bool) (pid : BitVec 13) (_afc : BitVec 2) (_rest : List Byte)
    (s : State) : Answer := dropBlock (.pidMismatch pid) s

/-- PKT.NOPAYLOAD.AFC00 (R136). -/
def execPktNoPayloadAfc00 (_bits : IgnoredBits) (_pusi : Bool) (_rest : List Byte) (s : State) : Answer :=
  dropBlock (.noPayload 0#2) s

/-- PKT.NOPAYLOAD.AFC10 (R137). -/
def execPktNoPayloadAfc10 (_bits : IgnoredBits) (_pusi : Bool) (_rest : List Byte) (s : State) : Answer :=
  dropBlock (.noPayload 2#2) s

/-- PKT.START.AFC01 (R138). -/
def execPktStartAfc01 (_bits : IgnoredBits) (payload : List Byte) (s : State) : Answer := passPayload payload true s

/-- PKT.CONT.AFC01 (R139). -/
def execPktContAfc01 (_bits : IgnoredBits) (payload : List Byte) (s : State) : Answer := passPayload payload false s

/-- PKT.START.AFC11 (R140). -/
def execPktStartAfc11 (_bits : IgnoredBits) (afLen : Byte) (rest : List Byte) (s : State) : Answer :=
  passAfterField afLen rest true s

/-- PKT.CONT.AFC11 (R141). -/
def execPktContAfc11 (_bits : IgnoredBits) (afLen : Byte) (rest : List Byte) (s : State) : Answer :=
  passAfterField afLen rest false s

end Sys2Proof.Machine
end

