-- ==== Sys2Proof/Machine/Block.lean ====
section
/-! DEFINITION. The host's transactions (spec/45_block_operations.md): PKT, RESET, READ. -/

namespace Sys2Proof.Machine

/-- PKT (R280): demultiplex, and hand a payload to the reassembler. -/
def execPkt (block : List Byte) (s : State) : Answer :=
  match demux block s.params.targetPid with
  | .drop ev => dropBlock ev s
  | .pass payload isStart => passPayload payload isStart s

/-- RESET (R290): `fsm <- Idle; store <- empty map; STORE_OVF <- 0`; the parameters stay (spec/10_state.md R43).
It returns nothing. -/
def execReset (s : State) : Answer := finish (((setIdle s).withStore []).withStoreOvf false) .nothing

/-- The value of a READ (R292): a copy of the key's record if there is one, or of all records. -/
def readValue (key : Option Half) (s : State) : ReadValue :=
  match key with
  | some k => .record (s.store.lookup k)
  | none => .all s.store

/-- READ (R292): no state written; the value and the status values are put out (log entries 6 and 10). -/
def execRead (key : Option Half) (s : State) : Answer := finish s (.read (readValue key s) (statusOf s))

end Sys2Proof.Machine
end

