-- ==== Sys2Proof/Machine/Dispatch.lean ====
section
/-! DEFINITION. One arm per constructor of `Instr`, each one call of that instruction's meaning. -/

namespace Sys2Proof.Machine

def exec (i : Instr) (s : State) : Host.Outcome State Fault Refusal :=
  match i with
  | .pktBadLen block => Sys2Proof.Machine.execPktBadLen block s
  | .pktStartAfc01 bits payload => Sys2Proof.Machine.execPktStartAfc01 bits payload s
  | .pktContAfc01 bits payload => Sys2Proof.Machine.execPktContAfc01 bits payload s
  | .pktStartAfc11 bits afLen rest => Sys2Proof.Machine.execPktStartAfc11 bits afLen rest s
  | .pktContAfc11 bits afLen rest => Sys2Proof.Machine.execPktContAfc11 bits afLen rest s
  | .pktNoPayloadAfc00 bits pusi rest => Sys2Proof.Machine.execPktNoPayloadAfc00 bits pusi rest s
  | .pktNoPayloadAfc10 bits pusi rest => Sys2Proof.Machine.execPktNoPayloadAfc10 bits pusi rest s
  | .pktOtherPid bits pusi pid afc rest => Sys2Proof.Machine.execPktOtherPid bits pusi pid afc rest s
  | .pktBadSync first rest => Sys2Proof.Machine.execPktBadSync first rest s
  | .secBegin ptr pre sec => Sys2Proof.Machine.execSecBegin ptr pre sec s
  | .secSkip payload => Sys2Proof.Machine.execSecSkip payload s
  | .secAppend payload => Sys2Proof.Machine.execSecAppend payload s
  | .secIgnore payload => Sys2Proof.Machine.execSecIgnore payload s
  | .secDeliver buffer => Sys2Proof.Machine.execSecDeliver buffer s
  | .sectionDecode buffer => Sys2Proof.Machine.execSectionDecode buffer s
  | .descParse data => Sys2Proof.Machine.execDescParse data s
  | .mergeCreate sec => Sys2Proof.Machine.execMergeCreate sec s
  | .mergeNew sec => Sys2Proof.Machine.execMergeNew sec s
  | .mergeDup sec => Sys2Proof.Machine.execMergeDup sec s
  | .mergeRange sec => Sys2Proof.Machine.execMergeRange sec s
  | .mergeOvf sec => Sys2Proof.Machine.execMergeOvf sec s
  | .mergeAbsent => Sys2Proof.Machine.execMergeAbsent s
  | .pkt block => Sys2Proof.Machine.execPkt block s
  | .reset => Sys2Proof.Machine.execReset s
  | .read key => Sys2Proof.Machine.execRead key s

end Sys2Proof.Machine
end

