-- ==== Sys2Proof/Machine/Step.lean ====
section
/-! DEFINITION. One step of the block: its complete reaction to one operation (spec/00_scope.md R9, R15; log entry 12). -/

namespace Sys2Proof.Machine

/-- The block takes the next operation presented and runs it to completion (spec/45_block_operations.md R281). While
nothing is presented it holds its state (spec/60_exceptions.md R325). -/
def step (s : State) : Host.Outcome State Fault Refusal :=
  match fetchOp s with
  | none => .next s
  | some (op, s') => exec (decodeOp s'.params.targetPid op) s'

/-- Present the instruction of a table word as the very next operation (log entries 1 and 8). -/
def State.withFetchWord (s : State) (nbits w : Nat) : State :=
  s.withInput (tableWordOp s.params.targetPid nbits w :: s.input)

end Sys2Proof.Machine
end

