-- ==== Sys2Proof/Machine/Assembler.lean ====
section
/-! DEFINITION. The textual notation of spec/30_encoding.md R100 and R101 as functions to bytes: PKT and RAW lines, the
pseudo-operations START, CONT, START.AF, CONT.AF, FOREIGN, and the byte string BATSEC. An error of the notation is
`none`. Nothing in the machine reads this file: it is what the spec's examples are written in. -/

namespace Sys2Proof.Machine

/-- The operands of a PKT line (R100); an omitted optional field is 0. -/
structure PktLine where
  pid  : BitVec 13
  pusi : Bool
  afc  : BitVec 2
  tei  : Bool := false
  prio : Bool := false
  sc   : BitVec 2 := 0#2
  cc   : BitVec 4 := 0#4
  af   : Byte := 0#8
  data : List Byte
  deriving DecidableEq, Repr

/-- The adaptation-field bytes after the length byte: the first is 0x00, the rest are 0xFF (R100). -/
def afFiller (af : Byte) : List Byte :=
  if af = 0#8 then [] else 0x00#8 :: List.replicate (af.toNat - 1) 0xFF#8

/-- Pad with 0xFF bytes on the right to 188 bytes; an error when the bytes do not fit (R100). -/
def padBlock (bytes : List Byte) : Option (List Byte) :=
  if bytes.length ≤ packetSize then some (bytes ++ List.replicate (packetSize - bytes.length) 0xFF#8) else none

/-- The block of a PKT line (R100). -/
def PktLine.block (l : PktLine) : Option (List Byte) :=
  let byte1 : Byte := BitVec.ofBool l.tei ++ BitVec.ofBool l.pusi ++ BitVec.ofBool l.prio ++ l.pid.extractLsb' 8 5
  let byte3 : Byte := l.sc ++ l.afc ++ l.cc
  let field := if l.afc = 2#2 ∨ l.afc = 3#2 then l.af :: afFiller l.af else []
  padBlock (0x47#8 :: byte1 :: l.pid.setWidth 8 :: byte3 :: (field ++ l.data))

/-- `START ptr=<n> pre=<hex> sec=<hex>` on `pid` (R101): an error unless `pre` has `n` bytes. -/
def startLine (pid : BitVec 13) (ptr : Byte) (pre sec : List Byte) : Option (List Byte) :=
  if pre.length = ptr.toNat then
    PktLine.block { pid := pid, pusi := true, afc := 1#2, data := ptr :: (pre ++ sec) }
  else none

/-- `CONT data=<hex>` on `pid` (R101). -/
def contLine (pid : BitVec 13) (data : List Byte) : Option (List Byte) :=
  PktLine.block { pid := pid, pusi := false, afc := 1#2, data := data }

/-- `START.AF af=<n> ptr=<n> pre=<hex> sec=<hex>` on `pid` (R101). -/
def startAfLine (pid : BitVec 13) (af ptr : Byte) (pre sec : List Byte) : Option (List Byte) :=
  if pre.length = ptr.toNat then
    PktLine.block { pid := pid, pusi := true, afc := 3#2, af := af, data := ptr :: (pre ++ sec) }
  else none

/-- `CONT.AF af=<n> data=<hex>` on `pid` (R101). -/
def contAfLine (pid : BitVec 13) (af : Byte) (data : List Byte) : Option (List Byte) :=
  PktLine.block { pid := pid, pusi := false, afc := 3#2, af := af, data := data }

/-- `FOREIGN pid=<hex>` (R101). -/
def foreignLine (pid : BitVec 13) : Option (List Byte) :=
  PktLine.block { pid := pid, pusi := false, afc := 1#2, data := [] }

/-- The two bytes of a 16-bit field, the more significant first (spec/20_memory.md R60). -/
def be16Bytes (v : Half) : List Byte := [v.extractLsb' 8 8, v.extractLsb' 0 8]

/-- The two bytes of a 12-bit length under `upper`, the four bits above it. -/
def len12Bytes (upper : BitVec 4) (n : Nat) : List Byte :=
  let v := BitVec.ofNat 12 n
  [upper ++ v.extractLsb' 8 4, v.extractLsb' 0 8]

/-- A descriptor's bytes (R96): tag, length, data. -/
def encodeDescriptor (d : Descriptor) : List Byte := d.tag :: BitVec.ofNat 8 d.data.length :: d.data

/-- The bytes of a descriptor loop. -/
def encodeDescriptors (ds : List Descriptor) : List Byte := ds.flatMap encodeDescriptor

/-- A transport-stream entry's bytes (R93), 0xF in the unnamed bits of its byte 4 (R101). -/
def encodeEntry (t : TransportStream) : List Byte :=
  let loop := encodeDescriptors t.descriptors
  be16Bytes t.transportStreamId ++ be16Bytes t.originalNetworkId ++ len12Bytes 0xF#4 loop.length ++ loop

/-- The bytes of a transport-stream loop. -/
def encodeEntries (ts : List TransportStream) : List Byte := ts.flatMap encodeEntry

/-- `section_length = 7 + bdl + 2 + tsl + 4` (R101). -/
def batsecLength (sec : BATSection) : Nat :=
  7 + (encodeDescriptors sec.bouquetDescriptors).length + 2 + (encodeEntries sec.transportStreams).length + 4

/-- `BATSEC(bouquet, ver, sec, last, bdesc, ts, crc)` (R101): the section's bytes. -/
def batsec (sec : BATSection) (crc : BitVec 32) : List Byte :=
  let bd := encodeDescriptors sec.bouquetDescriptors
  let ts := encodeEntries sec.transportStreams
  batTableId :: (len12Bytes 0xF#4 (batsecLength sec) ++ be16Bytes sec.bouquetId ++
    [3#2 ++ sec.versionNumber ++ 1#1, sec.sectionNumber, sec.lastSectionNumber] ++
    len12Bytes 0xF#4 bd.length ++ bd ++ len12Bytes 0xF#4 ts.length ++ ts ++
    [crc.extractLsb' 24 8, crc.extractLsb' 16 8, crc.extractLsb' 8 8, crc.extractLsb' 0 8])

end Sys2Proof.Machine
end

