-- ==== Sys2Proof/Safety.lean ====
section
/-! DEFINITION. What counts as a good state and a good step, in the terms the statements use. -/

namespace Sys2Proof.Machine

/-! ### Bytes, as the statements write them -/

/-- `b[i]` in a statement. At an index inside the sequence it is the byte the machine's `readByte` reads
(`readByte_eq_byteAt`); the machine reads at no other index (spec/20_memory.md R66), and this function stands in no
operation. -/
def byteAt (bytes : List Byte) (i : Nat) : Byte := bytes.getD i 0#8

/-- `((b & 0x0F) << 8) | c` as a number (spec/00_scope.md R12). -/
def twelveBits (b c : Byte) : Nat := 256 * (b.toNat % 16) + c.toNat

/-- `3 + section_length` of a section's bytes (spec/43_section_reassembler.md R208), written out. -/
def declaredLength (sec : List Byte) : Nat := 3 + twelveBits (byteAt sec 1) (byteAt sec 2)

/-! ### The invariant between steps -/

/-- A section being collected (spec/10_state.md R27, and part 4 item 4 of spec/95_test_vectors.md): at least the three
header bytes and fewer than `expected_length` are in `SB`, the length is the one those bytes declare, byte 0 is the BAT
table id. -/
def Reassembler.Inv : Reassembler → Prop
  | .idle => True
  | .collecting expected sb =>
    3 ≤ sb.length ∧ sb.length < expected ∧ expected = declaredLength sb ∧ byteAt sb 0 = batTableId

/-- A record (spec/10_state.md R31 to R33, R36): `complete` iff every index up to `last_section_number` is seen; no bit
above it is; some section has been merged; every descriptor has at most 255 data bytes. -/
abbrev BouquetRecord.Inv (r : BouquetRecord) : Prop :=
  (r.complete = true ↔ ∀ i < r.lastSectionNumber.toNat + 1, r.seenSections.getLsbD i = true) ∧
  (∀ i < 256, r.lastSectionNumber.toNat < i → r.seenSections.getLsbD i = false) ∧
  r.seenSections ≠ 0#256 ∧
  r.bouquetDescriptors.all Descriptor.wf = true ∧
  r.transportStreams.all TransportStream.wf = true

/-- No finite capacity is exceeded (spec/44_bouquet_aggregator.md R255). -/
abbrev withinCapacity (p : Params) (store : Store) : Prop :=
  exceeds store.length p.capBouquets = false ∧ ∀ r ∈ store, recordExceeds p r = false

/-- Some capacity parameter is finite. -/
abbrev finiteCapacity (p : Params) : Prop :=
  p.capBouquets ≠ none ∨ p.capTs ≠ none ∨ p.capDescBytes ≠ none

/-- The invariant of the block between steps. -/
structure State.Inv (s : State) : Prop where
  /-- spec/10_state.md R27. -/
  collecting : s.reasm.Inv
  /-- The store is in its canonical form: keys unique (spec/10_state.md R30). -/
  canonical : s.store.wf
  /-- spec/10_state.md R31 to R33. -/
  records : ∀ r ∈ s.store, r.Inv
  /-- spec/44_bouquet_aggregator.md R255. -/
  capacity : withinCapacity s.params s.store
  /-- `STORE_OVF` is constantly 0 under the default capacities (spec/10_state.md R22). -/
  overflow : s.storeOvf = true → finiteCapacity s.params

/-- No section that already has its declared length waits in the buffer: what spec/10_state.md R27 says of every state
between steps, and all that a start packet's rules need of it. -/
def notFull (s : State) : Prop :=
  ∀ expected sb, s.reasm = .collecting expected sb → sb.length < expected

/-- A count that a capacity parameter admits (spec/44_bouquet_aggregator.md R255). -/
def admits (cap : Option Nat) (count : Nat) : Prop := ∀ c, cap = some c → count ≤ c

/-- Creating the record `r` exceeds no capacity (R255). -/
def createFits (s : State) (r : BouquetRecord) : Prop :=
  admits s.params.capBouquets (s.store.length + 1) ∧ admits s.params.capTs r.transportStreams.length ∧
    admits s.params.capDescBytes (recordDescriptorBytes r)

/-- Replacing a record by `r` exceeds no capacity (R255). -/
def replaceFits (s : State) (r : BouquetRecord) : Prop :=
  admits s.params.capTs r.transportStreams.length ∧ admits s.params.capDescBytes (recordDescriptorBytes r)

/-- The record a section creates (spec/44_bouquet_aggregator.md R244), written out: it is complete at once only when
there is one section in all. -/
def recordCreatedBy (sec : BATSection) : BouquetRecord :=
  { bouquetId := sec.bouquetId, versionNumber := sec.versionNumber, lastSectionNumber := sec.lastSectionNumber,
    seenSections := BitVec.twoPow 256 sec.sectionNumber.toNat, bouquetDescriptors := sec.bouquetDescriptors,
    transportStreams := sec.transportStreams, complete := decide (sec.lastSectionNumber = 0#8) }

/-- The record after a section of a new number (R247, R249, R252, R253), written out. -/
def recordMergedWith (r : BouquetRecord) (sec : BATSection) : BouquetRecord :=
  { bouquetId := r.bouquetId, versionNumber := r.versionNumber, lastSectionNumber := r.lastSectionNumber,
    seenSections := r.seenSections ||| BitVec.twoPow 256 sec.sectionNumber.toNat,
    bouquetDescriptors := r.bouquetDescriptors ++ sec.bouquetDescriptors,
    transportStreams := mergeEntries r.transportStreams sec.transportStreams,
    complete := decide (∀ i < r.lastSectionNumber.toNat + 1,
      r.seenSections.getLsbD i = true ∨ i = sec.sectionNumber.toNat) }

/-! ### How a run may change the store -/

/-- An entry of a record may only gain descriptors at its end (spec/44_bouquet_aggregator.md R250). -/
def EntryExtends (e e' : TransportStream) : Prop :=
  e'.transportStreamId = e.transportStreamId ∧ e'.originalNetworkId = e.originalNetworkId ∧
    e.descriptors <+: e'.descriptors

/-- A record may only grow (spec/10_state.md R38, spec/44_bouquet_aggregator.md R253): its key, version and last section
number stay, no seen bit is cleared, no list gets shorter or loses its order, `complete` stays once true. -/
structure RecordExtends (r r' : BouquetRecord) : Prop where
  key         : r'.bouquetId = r.bouquetId
  version     : r'.versionNumber = r.versionNumber
  last        : r'.lastSectionNumber = r.lastSectionNumber
  seen        : ∀ i, r.seenSections.getLsbD i = true → r'.seenSections.getLsbD i = true
  descriptors : r.bouquetDescriptors <+: r'.bouquetDescriptors
  entries     : ∀ (i : Nat) (e : TransportStream), r.transportStreams[i]? = some e →
    ∃ e', r'.transportStreams[i]? = some e' ∧ EntryExtends e e'
  complete    : r.complete = true → r'.complete = true

/-- A store may only grow: no record is removed, each only extends. -/
def StoreExtends (store store' : Store) : Prop :=
  ∀ key r, store.lookup key = some r → ∃ r', store'.lookup key = some r' ∧ RecordExtends r r'

/-! ### Parts of what a step reports -/

/-- The deliveries of a step result; nothing else has any. -/
def Output.deliveries : Output → List Delivery
  | .step r => r.delivered
  | .reasm r => r.delivered
  | .delivery d _ => [d]
  | _ => []

/-- The step result of a block that yields no payload (spec/45_block_operations.md R286). -/
def droppedResult (ev : Event) : Output :=
  .step { demux := .none ev, reasm := .notInvoked, delivered := [], events := [ev] }

/-- The step result of a block that yields a payload, from what its second-level operation reports. -/
def payloadResult (length : Nat) (isStart : Bool) (r : ReasmReport) : Output :=
  .step { demux := .payload length isStart, reasm := r.action, delivered := r.delivered, events := r.events }

/-! ### What statements compare -/

/-- The event of a section dropped unfinished (spec/43_section_reassembler.md R222), written out. -/
def incompleteEvents : Reassembler → List Event
  | .idle => []
  | .collecting expected sb => [.incompleteDropped sb.length expected]

/-- Two blocks that agree but for the header bits no rule reads (spec/30_encoding.md R82): byte 1 bits 7 and 5, byte 3
bits 7:6 and 3:0. -/
def SameButIgnoredBits (a b : List Byte) : Prop :=
  a.length = b.length ∧
  (∀ i, i ≠ 1 → i ≠ 3 → byteAt a i = byteAt b i) ∧
  byteAt a 1 &&& 0x5F#8 = byteAt b 1 &&& 0x5F#8 ∧
  byteAt a 3 &&& 0x30#8 = byteAt b 3 &&& 0x30#8

/-- The descriptors of the new entries with an id, in wire order. -/
def descriptorsFor (id : Half) (entries : List TransportStream) : List Descriptor :=
  (entries.filter fun t => t.transportStreamId == id).flatMap fun t => t.descriptors

/-- The ids of entries that are not among those seen, each once, in the order of first occurrence
(spec/44_bouquet_aggregator.md R250, R251: an entry added earlier counts as present). -/
def newIds (seen : List Half) : List TransportStream → List Half
  | [] => []
  | t :: rest =>
    if t.transportStreamId ∈ seen then newIds seen rest
    else t.transportStreamId :: newIds (seen ++ [t.transportStreamId]) rest

/-- The first entry with an id (spec/44_bouquet_aggregator.md R250). -/
def firstEntry (id : Half) (entries : List TransportStream) : Option TransportStream :=
  entries.find? fun t => t.transportStreamId == id

end Sys2Proof.Machine
end

