-- ==== Sys2Proof/Certificates/Slice0/Obligations.lean ====
section
/-! DEFINITION. The statements for the provers. Each docstring names the rule of spec/ it formalises, or says that it
rests on a decision or a derivation of the spec's own. What an operation returns stands in `State.output`, the model's
port for it (log entry 2), in the shape of spec/45_block_operations.md R286 (decision D22) and with the values
spec/60_exceptions.md R302 names (log entry 9); a conclusion `s.withOutput …` says that nothing else changed. -/

open Sys2Proof Sys2Proof.Machine

/-! ### Encodings -/

/-- Every well-formed operation that its encoding can select is decoded from its encoding (spec/30_encoding.md sections
2 to 7). The MERGE operations on a section are selected by the store, not by an encoding. -/
def Obligations.DecodeOfEncodeIsTheOperation : Prop :=
  ∀ (targetPid : Half) (collecting : Bool) (i : Instr),
    i.wf targetPid = true → i.selectedBy collecting = true →
    (∀ sec, encode targetPid i ≠ .decoded (some sec)) →
    decode targetPid collecting (encode targetPid i) = .ok i

/-- No bit of a presented block is dropped and every block has a well-formed class (spec/30_encoding.md R97, R98),
whatever `TARGET_PID` is. -/
def Obligations.EncodeOfDecodeIsTheBlock : Prop :=
  ∀ (targetPid : Half) (block : List Byte),
    encode targetPid (decodeBlock targetPid block) = .block block ∧
    (decodeBlock targetPid block).wf targetPid = true

/-- No byte of a payload is dropped and every payload selects one well-formed operation (spec/30_encoding.md R99). -/
def Obligations.EncodeOfDecodeIsThePayload : Prop :=
  ∀ (targetPid : Half) (collecting isStart : Bool) (payload : List Byte),
    1 ≤ payload.length → payload.length ≤ 184 →
    encode targetPid (decodePayload collecting isStart payload) = .payload isStart payload ∧
    (decodePayload collecting isStart payload).wf targetPid = true ∧
    (decodePayload collecting isStart payload).selectedBy collecting = true

/-- Header words written out from the tables of spec/30_encoding.md R81 and R98. The 184 zero bytes of each block, the
182 zeros after a section's first byte, and that an 8-bit word other than 0x4A names no row are the model's choice, its
convention for table words (log entry 8). -/
def Obligations.HeaderWordsOfTheSpecDecode : Prop :=
  let zeros := List.replicate 184 0#8
  let plain : IgnoredBits := { tei := false, prio := false, sc := 0#2, cc := 0#4 }
  decodeTableWord 32 0x47401110 = some (.pktStartAfc01 plain zeros) ∧
  decodeTableWord 32 0x47E011DF =
    some (.pktStartAfc01 { tei := true, prio := true, sc := 3#2, cc := 15#4 } zeros) ∧
  decodeTableWord 32 0x47001110 = some (.pktContAfc01 plain zeros) ∧
  decodeTableWord 32 0x47401130 = some (.pktStartAfc11 plain 0#8 (zeros.drop 1)) ∧
  decodeTableWord 32 0x47001131 = some (.pktContAfc11 { plain with cc := 1#4 } 0#8 (zeros.drop 1)) ∧
  decodeTableWord 32 0x47401100 = some (.pktNoPayloadAfc00 plain true zeros) ∧
  decodeTableWord 32 0x47001120 = some (.pktNoPayloadAfc10 plain false zeros) ∧
  decodeTableWord 32 0x471FFF10 = some (.pktOtherPid plain false 0x1FFF#13 1#2 zeros) ∧
  decodeTableWord 32 0x48401110 = some (.pktBadSync 0x48#8 (0x40#8 :: 0x11#8 :: 0x10#8 :: zeros)) ∧
  decodeTableWord 8 0x4A = some (.sectionDecode (0x4A#8 :: List.replicate 182 0#8)) ∧
  decodeTableWord 8 0x40 = none

/-- Decoding a section written out from its fields yields exactly those fields, whatever follows it in the buffer
(the source's round-trip property VS5 of spec/95_test_vectors.md, for every section that fits the 12-bit length; the
byte string is BATSEC of spec/30_encoding.md R101). -/
def Obligations.SectionDecodeInvertsBatsec : Prop :=
  ∀ (sec : BATSection) (crc : BitVec 32) (extra : List Byte) (s : State),
    sec.wf = true → batsecLength sec ≤ 4095 →
    exec (.sectionDecode (batsec sec crc ++ extra)) s = .next (s.withOutput (.decoded (.ok sec) []))

/-! ### The step -/

/-- A step runs the operation presented: a block's class, RESET or READ. Beside it, the step takes the operation from
the queue; with nothing presented it holds the state (log entry 1). -/
def Obligations.StepRunsThePresentedOperation : Prop :=
  ∀ s : State,
    (∀ (op : HostOp) (rest : List HostOp), s.input = op :: rest →
      (decodeOp s.params.targetPid op).wf s.params.targetPid = true →
      step s = exec (decodeOp s.params.targetPid op) (s.withInput rest)) ∧
    (s.input = [] → step s = .next s)

/-- Every step completes: no input makes the block hang, fault or refuse (spec/45_block_operations.md R281, a derived
rule). That a step takes one operation from the queue is the model's choice (log entry 1), and that the parameters stand
in the state and stay as they are is the model's reading of R7 (log entry 3). -/
def Obligations.EveryStepCompletes : Prop :=
  ∀ s : State, ∃ t : State, step s = .next t ∧ t.input = s.input.tail ∧ t.params = s.params

/-- The operation map's table of masks and the demultiplexer's order of tests agree: PKT does what the class of its
block does (spec/30_encoding.md R98, marked derived there; spec/40_packet_demux.md R131). -/
def Obligations.PktDoesWhatItsClassDoes : Prop :=
  ∀ (block : List Byte) (s : State), exec (.pkt block) s = exec (decodeBlock s.params.targetPid block) s

/-! ### Packets -/

/-- PKT.BADLEN (spec/40_packet_demux.md R122, R133): a block of another length than 188 is dropped whole, whatever its
bytes, and nothing but the report changes. -/
def Obligations.BlocksOfAnotherLengthAreDropped : Prop :=
  ∀ (block : List Byte) (s : State), block.length ≠ 188 →
    decodeBlock s.params.targetPid block = .pktBadLen block ∧
    exec (.pktBadLen block) s = .next (s.withOutput (droppedResult (.frameLen block.length))) ∧
    exec (.pkt block) s = .next (s.withOutput (droppedResult (.frameLen block.length)))

/-- PKT.BADSYNC (spec/40_packet_demux.md R134). -/
def Obligations.BlocksWithoutSyncByteAreDropped : Prop :=
  ∀ (first : Byte) (rest : List Byte) (s : State), first ≠ 0x47#8 → rest.length = 187 →
    decodeBlock s.params.targetPid (first :: rest) = .pktBadSync first rest ∧
    exec (.pktBadSync first rest) s = .next (s.withOutput (droppedResult (.frameSync first))) ∧
    exec (.pkt (first :: rest)) s = .next (s.withOutput (droppedResult (.frameSync first)))

/-- PKT.OTHERPID (spec/40_packet_demux.md R135): a packet of another PID changes nothing, whatever its other fields. -/
def Obligations.ForeignPacketsAreDropped : Prop :=
  ∀ (bits : IgnoredBits) (pusi : Bool) (pid : BitVec 13) (afc : BitVec 2) (rest : List Byte) (s : State),
    rest.length = 184 → pid.setWidth 16 ≠ s.params.targetPid →
    decodeBlock s.params.targetPid (encodePacket bits pusi pid afc rest) = .pktOtherPid bits pusi pid afc rest ∧
    exec (.pktOtherPid bits pusi pid afc rest) s = .next (s.withOutput (droppedResult (.pidMismatch pid))) ∧
    exec (.pkt (encodePacket bits pusi pid afc rest)) s = .next (s.withOutput (droppedResult (.pidMismatch pid)))

/-- PKT.NOPAYLOAD.AFC00 and PKT.NOPAYLOAD.AFC10 (spec/40_packet_demux.md R136, R137): dropped with either start flag. -/
def Obligations.PacketsWithoutPayloadAreDropped : Prop :=
  ∀ (bits : IgnoredBits) (pusi : Bool) (pid : BitVec 13) (rest : List Byte) (s : State),
    rest.length = 184 → pid.setWidth 16 = s.params.targetPid →
    (decodeBlock s.params.targetPid (encodePacket bits pusi pid 0#2 rest) = .pktNoPayloadAfc00 bits pusi rest ∧
     exec (.pktNoPayloadAfc00 bits pusi rest) s = .next (s.withOutput (droppedResult (.noPayload 0#2))) ∧
     exec (.pkt (encodePacket bits pusi pid 0#2 rest)) s = .next (s.withOutput (droppedResult (.noPayload 0#2)))) ∧
    (decodeBlock s.params.targetPid (encodePacket bits pusi pid 2#2 rest) = .pktNoPayloadAfc10 bits pusi rest ∧
     exec (.pktNoPayloadAfc10 bits pusi rest) s = .next (s.withOutput (droppedResult (.noPayload 2#2))) ∧
     exec (.pkt (encodePacket bits pusi pid 2#2 rest)) s = .next (s.withOutput (droppedResult (.noPayload 2#2))))

/-- The four classes that may carry a payload (spec/40_packet_demux.md R138 to R141): the payload's operation runs, and
the step reports it with the payload's length and start flag; a field of 183 bytes or more leaves no payload. -/
def Obligations.PayloadClassesRunTheirPayload : Prop :=
  ∀ (bits : IgnoredBits) (s : State),
    (∀ payload : List Byte, payload.length = 184 →
      (∃ (t : State) (r : ReasmReport),
        exec (decodePayload (collectingFlag s) true payload) s = .next (t.withOutput (.reasm r)) ∧
        exec (.pktStartAfc01 bits payload) s = .next (t.withOutput (payloadResult 184 true r))) ∧
      (∃ (t : State) (r : ReasmReport),
        exec (decodePayload (collectingFlag s) false payload) s = .next (t.withOutput (.reasm r)) ∧
        exec (.pktContAfc01 bits payload) s = .next (t.withOutput (payloadResult 184 false r)))) ∧
    (∀ (afLen : Byte) (rest : List Byte), rest.length = 183 →
      (afLen.toNat ≤ 182 →
        (∃ (t : State) (r : ReasmReport), exec (decodePayload (collectingFlag s) true (rest.drop afLen.toNat)) s =
            .next (t.withOutput (.reasm r)) ∧
          exec (.pktStartAfc11 bits afLen rest) s =
            .next (t.withOutput (payloadResult (183 - afLen.toNat) true r))) ∧
        (∃ (t : State) (r : ReasmReport), exec (decodePayload (collectingFlag s) false (rest.drop afLen.toNat)) s =
            .next (t.withOutput (.reasm r)) ∧
          exec (.pktContAfc11 bits afLen rest) s =
            .next (t.withOutput (payloadResult (183 - afLen.toNat) false r)))) ∧
      (183 ≤ afLen.toNat →
        exec (.pktStartAfc11 bits afLen rest) s = .next (s.withOutput (droppedResult (.afOverrun afLen))) ∧
        exec (.pktContAfc11 bits afLen rest) s = .next (s.withOutput (droppedResult (.afOverrun afLen)))))

/-- PKT on a packet of the target PID with a payload (spec/45_block_operations.md R280, spec/40_packet_demux.md R124 to
R129, the fields read off the bytes by number): the operation the payload selects runs and the step reports it. -/
def Obligations.PktHandsThePayloadOn : Prop :=
  ∀ (block payload : List Byte) (isStart : Bool) (s : State),
    block.length = 188 → byteAt block 0 = 0x47#8 →
    256 * ((byteAt block 1).toNat % 32) + (byteAt block 2).toNat = s.params.targetPid.toNat →
    isStart = decide ((byteAt block 1).toNat / 64 % 2 = 1) →
    (((byteAt block 3).toNat / 16 % 4 = 1 ∧ payload = block.drop 4) ∨
     ((byteAt block 3).toNat / 16 % 4 = 3 ∧ (byteAt block 4).toNat ≤ 182 ∧
        payload = block.drop (5 + (byteAt block 4).toNat))) →
    ∃ (t : State) (r : ReasmReport),
      exec (decodePayload (collectingFlag s) isStart payload) s = .next (t.withOutput (.reasm r)) ∧
      exec (.pkt block) s = .next (t.withOutput (payloadResult payload.length isStart r))

/-- A step on a block that yields no payload touches neither the collection nor the store
(spec/43_section_reassembler.md R225). Beside that it takes the block from the queue, which is the model's
(log entry 1). -/
def Obligations.BlocksWithoutPayloadDoNotDisturb : Prop :=
  ∀ (block : List Byte) (rest : List HostOp) (s : State), s.input = .pkt block :: rest →
    (block.length ≠ 188 ∨ byteAt block 0 ≠ 0x47#8 ∨
     256 * ((byteAt block 1).toNat % 32) + (byteAt block 2).toNat ≠ s.params.targetPid.toNat ∨
     (byteAt block 3).toNat / 16 % 2 = 0 ∨
     ((byteAt block 3).toNat / 16 % 4 = 3 ∧ 183 ≤ (byteAt block 4).toNat)) →
    ∃ ev : Event, step s = .next ((s.withInput rest).withOutput (droppedResult ev))

/-- The first failing test names the one event (spec/40_packet_demux.md R131 and spec/60_exceptions.md R304: the spec's
own order of reporting, decision D21). -/
def Obligations.FirstFailingTestNamesTheEvent : Prop :=
  ∀ (block : List Byte) (s : State),
    (block.length ≠ 188 → exec (.pkt block) s = .next (s.withOutput (droppedResult (.frameLen block.length)))) ∧
    (block.length = 188 →
      (byteAt block 0 ≠ 0x47#8 →
        exec (.pkt block) s = .next (s.withOutput (droppedResult (.frameSync (byteAt block 0))))) ∧
      (byteAt block 0 = 0x47#8 →
        ∀ pid : BitVec 13, pid.toNat = 256 * ((byteAt block 1).toNat % 32) + (byteAt block 2).toNat →
          (pid.toNat ≠ s.params.targetPid.toNat →
            exec (.pkt block) s = .next (s.withOutput (droppedResult (.pidMismatch pid)))) ∧
          (pid.toNat = s.params.targetPid.toNat →
            ((byteAt block 3).toNat / 16 % 4 = 0 →
              exec (.pkt block) s = .next (s.withOutput (droppedResult (.noPayload 0#2)))) ∧
            ((byteAt block 3).toNat / 16 % 4 = 2 →
              exec (.pkt block) s = .next (s.withOutput (droppedResult (.noPayload 2#2)))) ∧
            ((byteAt block 3).toNat / 16 % 4 = 3 → 183 ≤ (byteAt block 4).toNat →
              exec (.pkt block) s = .next (s.withOutput (droppedResult (.afOverrun (byteAt block 4))))))))

/-- The header bits no rule names change neither the next state nor the step result (spec/30_encoding.md R82,
decision D5). -/
def Obligations.IgnoredHeaderBitsHaveNoEffect : Prop :=
  ∀ (a b : List Byte) (s : State), SameButIgnoredBits a b → exec (.pkt a) s = exec (.pkt b) s

/-! ### The reassembler -/

/-- SEC.BEGIN with a seed shorter than the section (spec/43_section_reassembler.md R208, R209): collecting goes on with
exactly the section's bytes and the length they declare, and nothing else changes. That those are the bytes at
`1 + ptr` is decision D6 (spec/30_encoding.md R87, R99; R204), and the event of an unfinished section that is dropped is
R222, derived there. -/
def Obligations.BeginCollectsAShortSeed : Prop :=
  ∀ (ptr : Byte) (pre sec : List Byte) (s : State),
    notFull s → pre.length = ptr.toNat → byteAt sec 0 = 0x4A#8 → 3 ≤ sec.length → sec.length < declaredLength sec →
    decodePayload (collectingFlag s) true (ptr :: (pre ++ sec)) = .secBegin ptr pre sec ∧
    exec (.secBegin ptr pre sec) s =
      .next ((s.withReasm (.collecting (declaredLength sec) sec)).withOutput
        (.reasm { action := .begin, delivered := [], events := incompleteEvents s.reasm }))

/-- SEC.BEGIN with the whole section in the seed delivers it in the same step (spec/43_section_reassembler.md R212,
decision D8: the seed counts as an append; decision D6 for the pointer field, R222 for the event of a dropped section,
R287 for the order of the events). -/
def Obligations.BeginDeliversAWholeSeed : Prop :=
  ∀ (ptr : Byte) (pre sec : List Byte) (s : State),
    notFull s → pre.length = ptr.toNat → byteAt sec 0 = 0x4A#8 → 3 ≤ sec.length → declaredLength sec ≤ sec.length →
    decodePayload (collectingFlag s) true (ptr :: (pre ++ sec)) = .secBegin ptr pre sec ∧
    ∃ (t : State) (d : Delivery) (events : List Event),
      exec (.secDeliver sec) s = .next (t.withOutput (.delivery d events)) ∧
      exec (.secBegin ptr pre sec) s =
        .next ((t.withReasm .idle).withOutput
          (.reasm { action := .begin, delivered := [d], events := incompleteEvents s.reasm ++ events }))

/-- A start payload of another table drops whatever was being collected and leaves Idle
(spec/43_section_reassembler.md R206). That the byte tested is the one at `1 + ptr` is decision D6 (R204), the dropped
section's event is R222, derived there, and its place after START_NOT_BAT is decision D21
(spec/45_block_operations.md R287). -/
def Obligations.StartOfAnotherTableIsSkipped : Prop :=
  ∀ (payload : List Byte) (s : State), notFull s →
    1 + (byteAt payload 0).toNat < payload.length →
    byteAt payload (1 + (byteAt payload 0).toNat) ≠ 0x4A#8 →
    let ev := Event.startNotBat (byteAt payload (1 + (byteAt payload 0).toNat))
    exec (.secSkip payload) s =
      .next ((s.withReasm .idle).withOutput
        (.reasm { action := .skip ev, delivered := [], events := ev :: incompleteEvents s.reasm }))

/-- A start payload too short for its pointer field or for the three header bytes is skipped the same way
(spec/43_section_reassembler.md R205, R207, decision D7; decision D6 for the pointer field, R222 and R287 for the event
of a dropped section). -/
def Obligations.StartTooShortIsSkipped : Prop :=
  ∀ (payload : List Byte) (s : State), notFull s → 1 ≤ payload.length →
    let off := 1 + (byteAt payload 0).toNat
    let skipped := fun ev => Host.Outcome.next (φ := Fault) (ρ := Refusal) ((s.withReasm .idle).withOutput
      (.reasm { action := .skip ev, delivered := [], events := ev :: incompleteEvents s.reasm }))
    (payload.length ≤ off →
      exec (.secSkip payload) s = skipped (.startPtrOverrun (byteAt payload 0) payload.length)) ∧
    (off < payload.length → byteAt payload off = 0x4A#8 → payload.length < off + 3 →
      exec (.secSkip payload) s = skipped (.startHdrShort (payload.length - off)))

/-- A start payload first finalises a buffer that is already full and then does what it does from Idle
(spec/43_section_reassembler.md R203, R224). No run reaches such a state (spec/10_state.md R27). -/
def Obligations.StartFinalisesAFullBufferFirst : Prop :=
  ∀ (payload sb : List Byte) (expected : Nat) (s : State),
    s.reasm = .collecting expected sb → expected ≤ sb.length →
    ∃ (t : State) (d : Delivery) (events : List Event) (u : State) (r : ReasmReport),
      exec (.secDeliver sb) s = .next (t.withOutput (.delivery d events)) ∧
      exec (decodePayload false true payload) (t.withReasm .idle) = .next (u.withOutput (.reasm r)) ∧
      exec (decodePayload true true payload) s =
        .next (u.withOutput
          (.reasm { action := r.action, delivered := d :: r.delivered, events := events ++ r.events }))

/-- SEC.APPEND (spec/43_section_reassembler.md R211, R218): the whole payload is appended; the append that reaches
`expected_length` delivers the buffer and leaves Idle. -/
def Obligations.AppendExtendsOrDelivers : Prop :=
  ∀ (payload sb : List Byte) (expected : Nat) (s : State), s.reasm = .collecting expected sb →
    (sb.length + payload.length < expected →
      exec (.secAppend payload) s =
        .next ((s.withReasm (.collecting expected (sb ++ payload))).withOutput
          (.reasm { action := .append, delivered := [], events := [] }))) ∧
    (expected ≤ sb.length + payload.length →
      ∃ (t : State) (d : Delivery) (events : List Event),
        exec (.secDeliver (sb ++ payload)) s = .next (t.withOutput (.delivery d events)) ∧
        exec (.secAppend payload) s =
          .next ((t.withReasm .idle).withOutput (.reasm { action := .append, delivered := [d], events := events })))

/-- SEC.IGNORE (spec/43_section_reassembler.md R210, decision D9): a continuation while Idle changes nothing. -/
def Obligations.ContinuationWhileIdleIsIgnored : Prop :=
  ∀ (payload : List Byte) (s : State), s.reasm = .idle →
    exec (.secIgnore payload) s =
      .next (s.withOutput (.reasm { action := .ignore, delivered := [], events := [.contIdle] }))

/-- SEC.DELIVER (spec/43_section_reassembler.md R214): the buffer is decoded and the result merged by the operation the
store selects; the decoder's events come before the aggregator's, and the reassembler is left alone. -/
def Obligations.DeliverDecodesThenMerges : Prop :=
  ∀ (buffer : List Byte) (s : State), ∃ (d : DecodeResult) (events : List Event) (t : State)
    (outcome : MergeOutcome) (mergeEvents : List Event),
    exec (.sectionDecode buffer) s = .next (s.withOutput (.decoded d events)) ∧
    exec (selectMerge d.toOption s) s = .next (t.withOutput (.merged outcome mergeEvents)) ∧
    exec (.secDeliver buffer) s =
      .next (t.withOutput (.delivery { decode := d, merge := outcome } (events ++ mergeEvents))) ∧
    t.reasm = s.reasm ∧ t.params = s.params ∧ t.input = s.input

/-- A section whose last bytes travel in a start packet is lost (spec/43_section_reassembler.md R220, R222, derived
there), whether or not the packet has an adaptation field: it is dropped with its event and never delivered. What is
delivered or collected afterwards is made of the new payload's section bytes alone: nothing where the payload starts no
section (R205 to R207, decision D7), those bytes where they are fewer than they declare, and otherwise exactly their
delivery (decision D8). That they begin at `1 + ptr` is decision D6, the order of the events decision D21 (R287). -/
def Obligations.StartDropsTheUnfinishedSection : Prop :=
  ∀ (bits : IgnoredBits) (i : Instr) (payload sb : List Byte) (expected : Nat) (s : State),
    ((payload.length = 184 ∧ i = .pktStartAfc01 bits payload) ∨
     ∃ (afLen : Byte) (rest : List Byte), rest.length = 183 ∧ afLen.toNat ≤ 182 ∧
       payload = rest.drop afLen.toNat ∧ i = .pktStartAfc11 bits afLen rest) →
    s.reasm = .collecting expected sb → sb.length < expected →
    let sec := payload.drop (1 + (byteAt payload 0).toNat)
    let dropped := Event.incompleteDropped sb.length expected
    let ev := if sec.length = 0 then Event.startPtrOverrun (byteAt payload 0) payload.length
      else if byteAt sec 0 ≠ 0x4A#8 then Event.startNotBat (byteAt sec 0)
      else Event.startHdrShort sec.length
    (sec.length < 3 ∨ byteAt sec 0 ≠ 0x4A#8 →
      exec i s = .next ((s.withReasm .idle).withOutput (payloadResult payload.length true
        { action := .skip ev, delivered := [], events := [ev, dropped] }))) ∧
    (3 ≤ sec.length → byteAt sec 0 = 0x4A#8 →
      (sec.length < declaredLength sec →
        exec i s = .next ((s.withReasm (.collecting (declaredLength sec) sec)).withOutput
          (payloadResult payload.length true { action := .begin, delivered := [], events := [dropped] }))) ∧
      (declaredLength sec ≤ sec.length →
        ∃ (t : State) (d : Delivery) (events : List Event),
          exec (.secDeliver sec) s = .next (t.withOutput (.delivery d events)) ∧
          exec i s = .next ((t.withReasm .idle).withOutput (payloadResult payload.length true
            { action := .begin, delivered := [d], events := dropped :: events }))))

/-! ### The decoders -/

/-- DESC.PARSE (spec/41_descriptor_codec.md R150, R154): the list re-encodes to exactly the bytes consumed, what remains
is shorter than a header or starts an entry that overruns the span, and only the report changes. -/
def Obligations.DescriptorParseIsExact : Prop :=
  ∀ (data : List Byte) (s : State), ∃ (ds : List Descriptor) (consumed : Nat),
    exec (.descParse data) s =
      .next (s.withOutput
        (.parsed ds consumed (if consumed < data.length then [.descTrunc consumed] else []))) ∧
    consumed ≤ data.length ∧ encodeDescriptors ds = data.take consumed ∧ ds.all Descriptor.wf = true ∧
    (data.length - consumed < 2 ∨ data.length < consumed + 2 + (byteAt data (consumed + 1)).toNat)

/-- SECTION.DECODE's three tests and the header fields (spec/42_section_decoder.md R171 to R176), the fields read off
the bytes by number. The order of the tests is decision D21 (R187); that DEC_LENGTH records the buffer's length and then
the declared one is the model's reading of "both lengths" (log entry 9). -/
def Obligations.SectionDecodeTestsAndHeader : Prop :=
  ∀ (buffer : List Byte) (s : State),
    let failed := fun ev => Host.Outcome.next (φ := Fault) (ρ := Refusal) (s.withOutput (.decoded (.fail ev) [ev]))
    (buffer.length < 8 → exec (.sectionDecode buffer) s = failed (.decShort buffer.length)) ∧
    (8 ≤ buffer.length →
      (byteAt buffer 0 ≠ 0x4A#8 → exec (.sectionDecode buffer) s = failed (.decTableId (byteAt buffer 0))) ∧
      (byteAt buffer 0 = 0x4A#8 →
        (buffer.length < declaredLength buffer →
          exec (.sectionDecode buffer) s = failed (.decLength buffer.length (declaredLength buffer))) ∧
        (declaredLength buffer ≤ buffer.length →
          ∃ (sec : BATSection) (events : List Event),
            exec (.sectionDecode buffer) s = .next (s.withOutput (.decoded (.ok sec) events)) ∧
            sec.bouquetId.toNat = 256 * (byteAt buffer 3).toNat + (byteAt buffer 4).toNat ∧
            sec.versionNumber.toNat = (byteAt buffer 5).toNat / 2 % 32 ∧
            sec.sectionNumber = byteAt buffer 6 ∧ sec.lastSectionNumber = byteAt buffer 7)))

/-- A section too short for a loop's length header decodes with that loop and every later one empty
(spec/42_section_decoder.md R177 to R180, decisions D12 and D13); the bouquet loop is what DESC.PARSE makes of its
bytes, cut at the section's end. -/
def Obligations.MissingLoopHeadersLeaveLoopsEmpty : Prop :=
  ∀ (buffer : List Byte) (s : State),
    8 ≤ buffer.length → byteAt buffer 0 = 0x4A#8 → declaredLength buffer ≤ buffer.length →
    let bound := declaredLength buffer
    let p := 10 + twelveBits (byteAt buffer 8) (byteAt buffer 9)
    ∃ (sec : BATSection) (events : List Event),
      exec (.sectionDecode buffer) s = .next (s.withOutput (.decoded (.ok sec) events)) ∧
      (bound < 10 → sec.bouquetDescriptors = [] ∧ sec.transportStreams = [] ∧ events = [.secShort bound]) ∧
      (10 ≤ bound →
        ∃ (consumed : Nat) (parsed : List Event),
          exec (.descParse ((buffer.take (min p bound)).drop 10)) s =
            .next (s.withOutput (.parsed sec.bouquetDescriptors consumed parsed)) ∧
          (bound < p + 2 →
            sec.transportStreams = [] ∧
            events = (if bound < p then [.loopClamp p bound] else []) ++ parsed ++ [.secShort bound]))

/-- The transport-stream loop (spec/42_section_decoder.md R182 to R185, decision D13 for the advance): an entry that
fits is emitted with what DESC.PARSE makes of its declared bytes, and the next one is found at the declared position;
the loop stops where fewer than six bytes remain or the declared length overruns. -/
def Obligations.TransportLoopFollowsDeclaredLengths : Prop :=
  ∀ (span : List Byte) (q : Nat),
    let dl := twelveBits (byteAt span 4) (byteAt span 5)
    let own := (span.take (6 + dl)).drop 6
    let later := span.drop (6 + dl)
    let more := entryLoop later.length later (q + 6 + dl)
    (6 + dl ≤ span.length →
      ∃ e : TransportStream, entryLoop span.length span q =
          { entries := e :: more.entries, stop := more.stop, events := parseEvents own ++ more.events } ∧
        e.transportStreamId.toNat = 256 * (byteAt span 0).toNat + (byteAt span 1).toNat ∧
        e.originalNetworkId.toNat = 256 * (byteAt span 2).toNat + (byteAt span 3).toNat ∧
        e.descriptors = (parseDescriptors own).descriptors) ∧
    (span.length < 6 ∨ span.length < 6 + dl →
      entryLoop span.length span q = { entries := [], stop := q, events := [] })

/-- Bytes of a buffer beyond the declared section, and beyond the eight the header needs, change nothing
(spec/42_section_decoder.md R175, decision D11; part 4 item 8 of spec/95_test_vectors.md). -/
def Obligations.SurplusBytesChangeNothing : Prop :=
  ∀ (sec a b : List Byte) (s : State),
    8 ≤ sec.length → declaredLength sec ≤ sec.length →
    exec (.sectionDecode (sec ++ a)) s = exec (.sectionDecode (sec ++ b)) s

/-! ### The aggregator -/

/-- MERGE.ABSENT (spec/44_bouquet_aggregator.md R241). -/
def Obligations.AbsentSectionChangesNothing : Prop :=
  ∀ s : State, exec .mergeAbsent s = .next (s.withOutput (.merged .absent []))

/-- MERGE.CREATE (spec/44_bouquet_aggregator.md R244, R256): one new record, its lists taken over as they are, complete
at once only when the section is the only one. -/
def Obligations.CreateMakesTheRecord : Prop :=
  ∀ (sec : BATSection) (s : State),
    s.store.lookup sec.bouquetId = none → sec.sectionNumber.toNat ≤ sec.lastSectionNumber.toNat →
    createFits s (recordCreatedBy sec) →
    exec (.mergeCreate sec) s =
      .next ((s.withStore (s.store.put (recordCreatedBy sec))).withOutput
        (.merged (.created sec.bouquetId (decide (sec.lastSectionNumber = 0#8))) []))

/-- MERGE.NEW (spec/44_bouquet_aggregator.md R247, R249, R252, R253; decisions D16 and D17): the section's number is
marked, its descriptors appended, its entries merged, completeness recomputed; version and last number stay. -/
def Obligations.NewSectionIsMerged : Prop :=
  ∀ (sec : BATSection) (r : BouquetRecord) (s : State),
    s.store.lookup sec.bouquetId = some r → sec.sectionNumber.toNat ≤ r.lastSectionNumber.toNat →
    r.seenSections.getLsbD sec.sectionNumber.toNat = false → replaceFits s (recordMergedWith r sec) →
    exec (.mergeNew sec) s =
      .next ((s.withStore (s.store.put (recordMergedWith r sec))).withOutput
        (.merged (.merged sec.bouquetId (recordMergedWith r sec).complete) []))

/-- MERGE.DUP (spec/44_bouquet_aggregator.md R246, R258): a section whose number is seen changes nothing, whatever its
version and content. -/
def Obligations.DuplicateSectionChangesNothing : Prop :=
  ∀ (sec : BATSection) (r : BouquetRecord) (s : State),
    s.store.lookup sec.bouquetId = some r → sec.sectionNumber.toNat ≤ r.lastSectionNumber.toNat →
    r.seenSections.getLsbD sec.sectionNumber.toNat = true →
    exec (.mergeDup sec) s =
      .next (s.withOutput (.merged (.duplicate sec.bouquetId r.complete)
        [.dupSection sec.bouquetId sec.sectionNumber]))

/-- MERGE.RANGE (spec/44_bouquet_aggregator.md R242, R259, decision D15): a number above the governing last section
number is ignored; the record governs where there is one, else the section. -/
def Obligations.OutOfRangeSectionIsIgnored : Prop :=
  ∀ (sec : BATSection) (last : Byte) (s : State),
    ((s.store.lookup sec.bouquetId = none ∧ last = sec.lastSectionNumber) ∨
      ∃ r, s.store.lookup sec.bouquetId = some r ∧ last = r.lastSectionNumber) →
    last.toNat < sec.sectionNumber.toNat →
    exec (.mergeRange sec) s =
      .next (s.withOutput (.merged (.range sec.bouquetId) [.secnumRange sec.bouquetId sec.sectionNumber last]))

/-- MERGE.OVF (spec/44_bouquet_aggregator.md R255, R260, decision D19): a merge that would exceed a finite capacity is
refused whole; only the sticky `STORE_OVF` is written. -/
def Obligations.OverflowingMergeIsRefusedWhole : Prop :=
  ∀ (sec : BATSection) (s : State),
    ((s.store.lookup sec.bouquetId = none ∧ sec.sectionNumber.toNat ≤ sec.lastSectionNumber.toNat ∧
        ¬ createFits s (recordCreatedBy sec)) ∨
      ∃ r, s.store.lookup sec.bouquetId = some r ∧ sec.sectionNumber.toNat ≤ r.lastSectionNumber.toNat ∧
        r.seenSections.getLsbD sec.sectionNumber.toNat = false ∧ ¬ replaceFits s (recordMergedWith r sec)) →
    exec (.mergeOvf sec) s =
      .next ((s.withStoreOvf true).withOutput (.merged (.overflow sec.bouquetId) [.storeOvf sec.bouquetId]))

/-- Transport streams are merged by `transport_stream_id` alone (spec/44_bouquet_aggregator.md R250, R251, R268,
decision D18): the first entry of an id gains the new entries' descriptors in order and keeps its
`original_network_id`; every entry present keeps its place, and one that is not the first of its id is unchanged; after
them stands exactly one entry for each id not present, in the order in which the ids first occur. -/
def Obligations.EntriesMergeByTransportStreamId : Prop :=
  ∀ (present new : List TransportStream),
    (∀ id : Half, firstEntry id (mergeEntries present new) =
      match firstEntry id present with
      | some e => some { e with descriptors := e.descriptors ++ descriptorsFor id new }
      | none => (firstEntry id new).map fun t => { t with descriptors := descriptorsFor id new }) ∧
    (∀ (n : Nat) (e : TransportStream), present[n]? = some e →
      ∃ e', (mergeEntries present new)[n]? = some e' ∧ EntryExtends e e' ∧
        ((∃ m < n, ∃ e₀, present[m]? = some e₀ ∧ e₀.transportStreamId = e.transportStreamId) → e' = e)) ∧
    (mergeEntries present new).map (fun t => t.transportStreamId) =
      present.map (fun t => t.transportStreamId) ++ newIds (present.map fun t => t.transportStreamId) new

/-- Feeding the same section twice leaves the store as feeding it once (spec/44_bouquet_aggregator.md R263, derived
there; the source's property VS3). -/
def Obligations.MergingTwiceIsMergingOnce : Prop :=
  ∀ (sec : BATSection) (s : State), ∃ t u : State,
    exec (selectMerge (some sec) s) s = .next t ∧ exec (selectMerge (some sec) t) t = .next u ∧
    u.store = t.store ∧ u.storeOvf = t.storeOvf

/-- A merge leaves the records of other bouquets, the reassembler, the parameters and the queue alone
(spec/44_bouquet_aggregator.md R269, its writing half). -/
def Obligations.MergeTouchesOnlyItsOwnBouquet : Prop :=
  ∀ (sec : BATSection) (s : State), ∃ t : State, exec (selectMerge (some sec) s) s = .next t ∧
    t.reasm = s.reasm ∧ t.params = s.params ∧ t.input = s.input ∧
    ∀ key, key ≠ sec.bouquetId → t.store.lookup key = s.store.lookup key

/-- Two sections of a bouquet of two, in either order of arrival, complete it, and only the second does
(spec/44_bouquet_aggregator.md R265, the source's scenario B, for every content; unbounded capacities). -/
def Obligations.SecondSectionCompletesThePair : Prop :=
  ∀ (a b : BATSection) (s : State),
    s.params.capBouquets = none → s.params.capTs = none → s.params.capDescBytes = none →
    s.store.lookup a.bouquetId = none → b.bouquetId = a.bouquetId → a.lastSectionNumber = 1#8 →
    ((a.sectionNumber = 1#8 ∧ b.sectionNumber = 0#8) ∨ (a.sectionNumber = 0#8 ∧ b.sectionNumber = 1#8)) →
    ∃ (t u : State) (ra rb : BouquetRecord),
      exec (.mergeCreate a) s = .next t ∧ t.store.lookup a.bouquetId = some ra ∧ ra.complete = false ∧
      exec (.mergeNew b) t = .next u ∧ u.store.lookup a.bouquetId = some rb ∧ rb.complete = true ∧
      rb.transportStreams = mergeEntries a.transportStreams b.transportStreams

/-! ### The host's other transactions -/

/-- RESET (spec/45_block_operations.md R290, decisions D20 and D30): whatever the history, the block is as after
power-up, with its parameters and with what the host still has to present (the queue is the model's, log entry 1). -/
def Obligations.ResetStartsANewRun : Prop :=
  ∀ s : State,
    exec .reset s = .next { State.reset with params := s.params, input := s.input } ∧
    ∀ rest, s.input = .reset :: rest →
      step s = .next { State.reset with params := s.params, input := rest }

/-- The state after reset (spec/10_state.md R43, decisions D2, D19, D20). The empty queue and the empty report are the
model's (log entries 1 and 2). -/
def Obligations.ResetValues : Prop :=
  State.reset.reasm = .idle ∧ (∀ key, State.reset.store.lookup key = none) ∧ State.reset.storeOvf = false ∧
  State.reset.params.targetPid = 0x0011#16 ∧ State.reset.params.capBouquets = none ∧
  State.reset.params.capTs = none ∧ State.reset.params.capDescBytes = none ∧ State.reset.params.blockMax = none

/-- READ (spec/45_block_operations.md R292, decision D23; status values of spec/10_state.md R40): no state is written,
the record or all records are returned with the status values. That the status comes with the value, that its two
lengths are absent in Idle, and that all records are answered as the list the store is, in key order, is the model's
choice (log entries 10, 4 and 6). -/
def Obligations.ReadReturnsACopy : Prop :=
  ∀ (s : State) (key : Half), ∃ status : Status,
    exec (.read (some key)) s = .next (s.withOutput (.read (.record (s.store.lookup key)) status)) ∧
    exec (.read none) s = .next (s.withOutput (.read (.all s.store) status)) ∧
    status.targetPid = s.params.targetPid ∧ status.tableId = 0x4A#8 ∧ status.storeOvf = s.storeOvf ∧
    (s.reasm = .idle → status.fsm = 0#1 ∧ status.expectedLength = none ∧ status.sbLength = none) ∧
    (∀ expected sb, s.reasm = .collecting expected sb →
      status.fsm = 1#1 ∧ status.expectedLength = some expected ∧ status.sbLength = some sb.length)

/-! ### Invariants and runs -/

/-- Every step keeps the invariant: R27 and R31 to R33 of spec/10_state.md, the store's canonical form, the capacities
of spec/44_bouquet_aggregator.md R255. -/
def Obligations.EveryStepKeepsTheInvariant : Prop :=
  ∀ s t : State, s.Inv → step s = .next t → t.Inv

/-- The state after reset meets the invariant, for every choice of parameters and operations to come. -/
def Obligations.ResetMeetsTheInvariant : Prop :=
  ∀ (p : Params) (ops : List HostOp), State.Inv { State.reset with params := p, input := ops }

/-- Widths and bounds of the reassembler's registers (spec/00_scope.md R8, spec/10_state.md R27,
spec/43_section_reassembler.md R226; all derived there): the buffer never exceeds `BUF_CAP`, even inside a step. -/
def Obligations.SectionBufferNeverOverflows : Prop :=
  ∀ (s : State) (expected : Nat) (sb payload : List Byte), s.Inv → s.reasm = .collecting expected sb →
    payload.length ≤ 184 →
    3 ≤ expected ∧ expected ≤ 4098 ∧ 1 ≤ sb.length ∧ sb.length ≤ 4097 ∧ (sb ++ payload).length ≤ 4281

/-- At most one section is delivered per step (spec/45_block_operations.md R286 with spec/10_state.md R27). -/
def Obligations.AtMostOneDeliveryPerStep : Prop :=
  ∀ s t : State, s.Inv → s.input ≠ [] → step s = .next t → t.output.deliveries.length ≤ 1

/-- Within a run the store only grows, and only RESET empties it (spec/10_state.md R38); `STORE_OVF` is sticky. -/
def Obligations.StoreOnlyGrowsWithinARun : Prop :=
  ∀ (s t : State) (op : HostOp) (rest : List HostOp), s.Inv → s.input = op :: rest → step s = .next t →
    (op ≠ .reset → StoreExtends s.store t.store ∧ (s.storeOvf = true → t.storeOvf = true)) ∧
    (op = .reset → t.store = [] ∧ t.storeOvf = false)

/-- A complete record never changes again in the run (spec/44_bouquet_aggregator.md R264, derived there; the source's
property VS4). -/
def Obligations.CompleteRecordsNeverChange : Prop :=
  ∀ (s t : State) (op : HostOp) (rest : List HostOp) (key : Half) (r : BouquetRecord),
    s.Inv → s.input = op :: rest → op ≠ .reset → step s = .next t →
    s.store.lookup key = some r → r.complete = true → t.store.lookup key = some r

/-- No operation reads the report, the queue or `BLOCK_MAX` (spec/60_exceptions.md R303, spec/10_state.md R41,
spec/00_scope.md R7): two states that differ in those alone go to states that differ in the queue and `BLOCK_MAX`
alone. -/
def Obligations.NoOperationReadsReportQueueOrBlockMax : Prop :=
  ∀ (i : Instr) (s : State) (o : Output) (ops : List HostOp) (m : Option Nat), ∃ t : State,
    exec i s = .next t ∧
    exec i { s with output := o, input := ops, params := { s.params with blockMax := m } } =
      .next { t with input := ops, params := { t.params with blockMax := m } }

/-! ### The second loop of a section -/

/-- SECTION.DECODE of a section that holds its transport-stream loop's header (spec/42_section_decoder.md R180 to R185,
R188; decision D13 for the cuts, D14 for the mask): the loop is what `entryLoop` makes of exactly the bytes after the header, to the
declared end or to the section's end where that comes first; a cut raises LOOP_CLAMP before the entries' events, and a
loop that stops early raises TSLOOP_TRUNC after them. What `entryLoop` makes of its bytes is
TransportLoopFollowsDeclaredLengths. -/
def Obligations.SecondLoopIsDecodedWithinTheSection : Prop :=
  ∀ (buffer : List Byte) (s : State),
    8 ≤ buffer.length → byteAt buffer 0 = 0x4A#8 → declaredLength buffer ≤ buffer.length →
    let bound := declaredLength buffer
    let p := 10 + twelveBits (byteAt buffer 8) (byteAt buffer 9)
    let declaredEnd := p + 2 + twelveBits (byteAt buffer p) (byteAt buffer (p + 1))
    let tsEnd := min declaredEnd bound
    let span := (buffer.take tsEnd).drop (p + 2)
    let l := entryLoop span.length span (p + 2)
    p + 2 ≤ bound →
    ∃ (sec : BATSection) (consumed : Nat) (parsed : List Event),
      exec (.descParse ((buffer.take p).drop 10)) s =
        .next (s.withOutput (.parsed sec.bouquetDescriptors consumed parsed)) ∧
      exec (.sectionDecode buffer) s = .next (s.withOutput (.decoded (.ok sec)
        (parsed ++ (if bound < declaredEnd then [.loopClamp declaredEnd bound] else []) ++ l.events ++
          (if l.stop < tsEnd then [.tsLoopTrunc l.stop] else [])))) ∧
      sec.transportStreams = l.entries
end

