-- ==== Sys2Proof/Laws/Reads.lean ====
section
/-! SUPPORT. The reads of a byte sequence by number: what each field of Machine/Operands.lean is, in the bytes the
statements name. A machine's read carries the proof that its index is inside (spec/20_memory.md R66); these lemmas take
that proof as it comes and leave none in the result. -/

namespace Sys2Proof.Machine

/-- A read of the machine is the byte at that index. -/
@[simp] theorem readByte_eq_byteAt (bytes : List Byte) (i : Nat) (inside : i < bytes.length) :
    readByte bytes i inside = byteAt bytes i := by
  simp [readByte, byteAt, inside]

@[simp] theorem byteAt_cons_zero (b : Byte) (rest : List Byte) : byteAt (b :: rest) 0 = b := rfl
@[simp] theorem byteAt_cons_succ (b : Byte) (rest : List Byte) (i : Nat) :
    byteAt (b :: rest) (i + 1) = byteAt rest i := by
  simp [byteAt]

/-- The byte at an index of a tail. -/
theorem byteAt_drop (bytes : List Byte) (n i : Nat) : byteAt (bytes.drop n) i = byteAt bytes (n + i) := by
  simp [byteAt, List.getD_eq_getElem?_getD]

/-- The byte at an index of a prefix. -/
theorem byteAt_take (bytes : List Byte) {n i : Nat} (h : i < n) : byteAt (bytes.take n) i = byteAt bytes i := by
  simp [byteAt, List.getD_eq_getElem?_getD, h]

/-- The byte at an index inside the first of two sequences. -/
theorem byteAt_append_left (a b : List Byte) {i : Nat} (h : i < a.length) : byteAt (a ++ b) i = byteAt a i := by
  simp [byteAt, List.getD_eq_getElem?_getD, List.getElem?_append_left h]

/-- The byte at an index beyond the first of two sequences. -/
theorem byteAt_append_right (a b : List Byte) (i : Nat) : byteAt (a ++ b) (a.length + i) = byteAt b i := by
  simp [byteAt, List.getD_eq_getElem?_getD, List.getElem?_append_right]

/-- Two bytes side by side are the number they write. -/
theorem shifted_or_toNat {w : Nat} (x y : BitVec w) (hx : x.toNat * 256 < 2 ^ w) (hy : y.toNat < 256) :
    (x <<< 8 ||| y).toNat = 256 * x.toNat + y.toNat := by
  have h := Nat.shiftLeft_add_eq_or_of_lt (show y.toNat < 2 ^ 8 from hy) x.toNat
  rw [BitVec.toNat_or, BitVec.toNat_shiftLeft, Nat.shiftLeft_eq, show (2 : Nat) ^ 8 = 256 from rfl,
    Nat.mod_eq_of_lt hx]
  rw [Nat.shiftLeft_eq, show (2 : Nat) ^ 8 = 256 from rfl] at h
  omega

/-- The low bits of a byte as a number. -/
theorem low4 (b : Byte) : (b &&& 0x0F#8).toNat = b.toNat % 16 := by
  revert b; decide +kernel
theorem low5 (b : Byte) : (b &&& 0x1F#8).toNat = b.toNat % 32 := by
  revert b; decide +kernel

/-- `be16` by number (spec/00_scope.md R12). -/
theorem be16_toNat (bytes : List Byte) (i : Nat) (inside : i + 1 < bytes.length) :
    (be16 bytes i inside).toNat = 256 * (byteAt bytes i).toNat + (byteAt bytes (i + 1)).toNat := by
  have h0 := (byteAt bytes i).isLt
  have h1 := (byteAt bytes (i + 1)).isLt
  rw [be16, readByte_eq_byteAt, readByte_eq_byteAt, shifted_or_toNat] <;>
    simp only [BitVec.toNat_setWidth] <;> omega

/-- `len12` by number (spec/00_scope.md R12). -/
theorem len12_eq (bytes : List Byte) (i : Nat) (inside : i + 1 < bytes.length) :
    len12 bytes i inside = twelveBits (byteAt bytes i) (byteAt bytes (i + 1)) := by
  have h0 := low4 (byteAt bytes i)
  have h1 := (byteAt bytes (i + 1)).isLt
  rw [len12, readByte_eq_byteAt, readByte_eq_byteAt, shifted_or_toNat] <;>
    simp only [BitVec.toNat_setWidth, twelveBits, h0] <;> omega

/-- The PID by number (spec/40_packet_demux.md R124). -/
theorem pidOf_toNat (block : List Byte) (full : block.length = packetSize) :
    (pidOf block full).toNat = 256 * ((byteAt block 1).toNat % 32) + (byteAt block 2).toNat := by
  have h0 := low5 (byteAt block 1)
  have h1 := (byteAt block 2).isLt
  rw [pidOf, readByte_eq_byteAt, readByte_eq_byteAt, shifted_or_toNat] <;>
    simp only [BitVec.toNat_setWidth, h0] <;> omega

/-- The adaptation-field-control by number (spec/40_packet_demux.md R126). -/
theorem afcOf_toNat (block : List Byte) (full : block.length = packetSize) :
    (afcOf block full).toNat = (byteAt block 3).toNat / 16 % 4 := by
  rw [afcOf, readByte_eq_byteAt]
  generalize byteAt block 3 = b
  revert b; decide +kernel

/-- The version by number (spec/30_encoding.md R89). -/
theorem versionNumberOf_toNat (buffer : List Byte) (inside : 5 < buffer.length) :
    (versionNumberOf buffer inside).toNat = (byteAt buffer 5).toNat / 2 % 32 := by
  rw [versionNumberOf, readByte_eq_byteAt]
  generalize byteAt buffer 5 = b
  revert b; decide +kernel

/-- The declared length by number (spec/43_section_reassembler.md R208). -/
theorem expectedLengthOf_eq (buffer : List Byte) (header : 3 ≤ buffer.length) :
    expectedLengthOf buffer header = declaredLength buffer := by
  rw [expectedLengthOf, sectionLength, len12_eq, declaredLength]

/-- The bouquet descriptor loop length by number (spec/30_encoding.md R89). -/
theorem bouquetLoopLength_eq (buffer : List Byte) (inside : 10 ≤ buffer.length) :
    bouquetLoopLength buffer inside = twelveBits (byteAt buffer 8) (byteAt buffer 9) := len12_eq buffer 8 inside

/-- The transport-stream loop length by number (spec/30_encoding.md R90). -/
theorem tsLoopLength_eq (buffer : List Byte) (p : Nat) (inside : p + 2 ≤ buffer.length) :
    tsLoopLength buffer p inside = twelveBits (byteAt buffer p) (byteAt buffer (p + 1)) := len12_eq buffer p inside

end Sys2Proof.Machine
end

