-- ==== Sys2Proof/Laws/State.lean ====
section
/-! SUPPORT. One lemma per field per update of State, and the store as a map: what is read after a write, and that a
write keeps the canonical form. -/

namespace Sys2Proof.Machine

/-! ### Fields after an update -/

@[simp] theorem State.withReasm_params (s : State) (x : Reassembler) : (s.withReasm x).params = s.params := rfl
@[simp] theorem State.withReasm_reasm (s : State) (x : Reassembler) : (s.withReasm x).reasm = x := rfl
@[simp] theorem State.withReasm_store (s : State) (x : Reassembler) : (s.withReasm x).store = s.store := rfl
@[simp] theorem State.withReasm_storeOvf (s : State) (x : Reassembler) : (s.withReasm x).storeOvf = s.storeOvf := rfl
@[simp] theorem State.withReasm_input (s : State) (x : Reassembler) : (s.withReasm x).input = s.input := rfl
@[simp] theorem State.withReasm_output (s : State) (x : Reassembler) : (s.withReasm x).output = s.output := rfl

@[simp] theorem State.withStore_params (s : State) (x : Store) : (s.withStore x).params = s.params := rfl
@[simp] theorem State.withStore_reasm (s : State) (x : Store) : (s.withStore x).reasm = s.reasm := rfl
@[simp] theorem State.withStore_store (s : State) (x : Store) : (s.withStore x).store = x := rfl
@[simp] theorem State.withStore_storeOvf (s : State) (x : Store) : (s.withStore x).storeOvf = s.storeOvf := rfl
@[simp] theorem State.withStore_input (s : State) (x : Store) : (s.withStore x).input = s.input := rfl
@[simp] theorem State.withStore_output (s : State) (x : Store) : (s.withStore x).output = s.output := rfl

@[simp] theorem State.withStoreOvf_params (s : State) (x : Bool) : (s.withStoreOvf x).params = s.params := rfl
@[simp] theorem State.withStoreOvf_reasm (s : State) (x : Bool) : (s.withStoreOvf x).reasm = s.reasm := rfl
@[simp] theorem State.withStoreOvf_store (s : State) (x : Bool) : (s.withStoreOvf x).store = s.store := rfl
@[simp] theorem State.withStoreOvf_storeOvf (s : State) (x : Bool) : (s.withStoreOvf x).storeOvf = x := rfl
@[simp] theorem State.withStoreOvf_input (s : State) (x : Bool) : (s.withStoreOvf x).input = s.input := rfl
@[simp] theorem State.withStoreOvf_output (s : State) (x : Bool) : (s.withStoreOvf x).output = s.output := rfl

@[simp] theorem State.withOutput_params (s : State) (x : Output) : (s.withOutput x).params = s.params := rfl
@[simp] theorem State.withOutput_reasm (s : State) (x : Output) : (s.withOutput x).reasm = s.reasm := rfl
@[simp] theorem State.withOutput_store (s : State) (x : Output) : (s.withOutput x).store = s.store := rfl
@[simp] theorem State.withOutput_storeOvf (s : State) (x : Output) : (s.withOutput x).storeOvf = s.storeOvf := rfl
@[simp] theorem State.withOutput_input (s : State) (x : Output) : (s.withOutput x).input = s.input := rfl
@[simp] theorem State.withOutput_output (s : State) (x : Output) : (s.withOutput x).output = x := rfl

@[simp] theorem State.withInput_params (s : State) (x : List HostOp) : (s.withInput x).params = s.params := rfl
@[simp] theorem State.withInput_reasm (s : State) (x : List HostOp) : (s.withInput x).reasm = s.reasm := rfl
@[simp] theorem State.withInput_store (s : State) (x : List HostOp) : (s.withInput x).store = s.store := rfl
@[simp] theorem State.withInput_storeOvf (s : State) (x : List HostOp) : (s.withInput x).storeOvf = s.storeOvf := rfl
@[simp] theorem State.withInput_input (s : State) (x : List HostOp) : (s.withInput x).input = x := rfl
@[simp] theorem State.withInput_output (s : State) (x : List HostOp) : (s.withInput x).output = s.output := rfl

@[simp] theorem setIdle_reasm (s : State) : (setIdle s).reasm = .idle := rfl
@[simp] theorem setIdle_params (s : State) : (setIdle s).params = s.params := rfl
@[simp] theorem setIdle_store (s : State) : (setIdle s).store = s.store := rfl
@[simp] theorem setIdle_storeOvf (s : State) : (setIdle s).storeOvf = s.storeOvf := rfl
@[simp] theorem setIdle_input (s : State) : (setIdle s).input = s.input := rfl

@[simp] theorem seedBuffer_reasm (seed : Seed) (s : State) :
    (seedBuffer seed s).reasm = .collecting (declaredLength seed.bytes) seed.bytes := by
  simp [seedBuffer, expectedLengthOf_eq]
@[simp] theorem seedBuffer_params (seed : Seed) (s : State) : (seedBuffer seed s).params = s.params := rfl
@[simp] theorem seedBuffer_store (seed : Seed) (s : State) : (seedBuffer seed s).store = s.store := rfl
@[simp] theorem seedBuffer_storeOvf (seed : Seed) (s : State) : (seedBuffer seed s).storeOvf = s.storeOvf := rfl
@[simp] theorem seedBuffer_input (seed : Seed) (s : State) : (seedBuffer seed s).input = s.input := rfl

/-- An operation that finishes answers the next state it says. -/
@[simp] theorem finish_eq_next (s t : State) (o : Output) : finish s o = .next t ↔ s.withOutput o = t := by
  simp [finish]

/-! ### The store as a map -/

@[simp] theorem Store.lookup_nil (key : Half) : Store.lookup [] key = none := rfl

theorem Store.lookup_cons (x : BouquetRecord) (rest : Store) (key : Half) :
    Store.lookup (x :: rest) key = if x.bouquetId = key then some x else Store.lookup rest key := by
  unfold Store.lookup
  by_cases h : x.bouquetId = key <;> simp [h]

/-- A record found has the key asked for (spec/10_state.md R31). -/
theorem Store.lookup_key {store : Store} {key : Half} {r : BouquetRecord} (h : store.lookup key = some r) :
    r.bouquetId = key := by
  have := List.find?_some h
  simpa using this

/-- A record found stands in the store. -/
theorem Store.lookup_mem {store : Store} {key : Half} {r : BouquetRecord} (h : store.lookup key = some r) :
    r ∈ store := List.mem_of_find?_eq_some h

/-- Read after write at the key written. -/
theorem Store.lookup_put_same (store : Store) (r : BouquetRecord) :
    (store.put r).lookup r.bouquetId = some r := by
  induction store with
  | nil => simp [Store.put, Store.lookup_cons]
  | cons x rest ih =>
    unfold Store.put
    split
    · simp [Store.lookup_cons]
    · split
      · simp [Store.lookup_cons]
      · rename_i hlt hne
        have : x.bouquetId ≠ r.bouquetId := fun h => hne h.symm
        simp [Store.lookup_cons, this, ih]

/-- A write leaves every other key alone. -/
theorem Store.lookup_put_other (store : Store) (r : BouquetRecord) {key : Half} (hk : key ≠ r.bouquetId) :
    (store.put r).lookup key = store.lookup key := by
  induction store with
  | nil => simp [Store.put, Store.lookup_cons, Ne.symm hk]
  | cons x rest ih =>
    unfold Store.put
    split
    · simp [Store.lookup_cons, Ne.symm hk]
    · split
      · rename_i hlt heq
        simp [Store.lookup_cons, heq ▸ Ne.symm hk, Ne.symm hk]
      · simp [Store.lookup_cons, ih]

/-- What stands in a store after a write. -/
theorem Store.mem_put {store : Store} {r x : BouquetRecord} (h : x ∈ store.put r) : x = r ∨ x ∈ store := by
  induction store with
  | nil => simpa [Store.put] using h
  | cons y rest ih =>
    unfold Store.put at h
    split at h
    · simpa using h
    · split at h
      · simp at h
        rcases h with h | h
        · exact .inl h
        · exact .inr (List.mem_cons_of_mem _ h)
      · simp at h
        rcases h with h | h
        · exact .inr (by simp [h])
        · rcases ih h with h | h
          · exact .inl h
          · exact .inr (List.mem_cons_of_mem _ h)

/-- A write keeps the canonical form of the store. -/
theorem Store.put_wf {store : Store} (r : BouquetRecord) (h : store.wf) : (store.put r).wf := by
  induction store with
  | nil => simp [Store.put, Store.wf]
  | cons x rest ih =>
    have hx : ∀ y ∈ rest, x.bouquetId.toNat < y.bouquetId.toNat := (List.pairwise_cons.mp h).1
    have hrest : Store.wf rest := (List.pairwise_cons.mp h).2
    unfold Store.put
    split
    · rename_i hlt
      refine List.pairwise_cons.mpr ⟨?_, h⟩
      intro y hy
      rcases List.mem_cons.mp hy with hy | hy
      · rw [hy]; exact hlt
      · exact Nat.lt_trans hlt (hx y hy)
    · split
      · rename_i hlt heq
        exact List.pairwise_cons.mpr ⟨fun y hy => by rw [heq]; exact hx y hy, hrest⟩
      · rename_i hlt hne
        refine List.pairwise_cons.mpr ⟨?_, ih hrest⟩
        intro y hy
        rcases Store.mem_put hy with hy | hy
        · rw [hy]
          have : x.bouquetId.toNat ≠ r.bouquetId.toNat := fun e => hne (BitVec.eq_of_toNat_eq e.symm)
          omega
        · exact hx y hy

/-- A record that stands in a canonical store is the one its key finds. -/
theorem Store.lookup_of_mem {store : Store} (h : store.wf) {r : BouquetRecord} (hr : r ∈ store) :
    store.lookup r.bouquetId = some r := by
  induction store with
  | nil => simp at hr
  | cons x rest ih =>
    have hx := (List.pairwise_cons.mp h).1
    rw [Store.lookup_cons]
    rcases List.mem_cons.mp hr with hr | hr
    · simp [hr]
    · have hlt := hx r hr
      have : x.bouquetId ≠ r.bouquetId := fun e => by rw [e] at hlt; omega
      simp [this, ih (List.pairwise_cons.mp h).2 hr]

/-- How many records a write leaves: one more for a new key, as many for a present one. -/
theorem Store.length_put (store : Store) (r : BouquetRecord) (h : store.wf) :
    (store.put r).length = if (store.lookup r.bouquetId).isSome then store.length else store.length + 1 := by
  induction store with
  | nil => simp [Store.put]
  | cons x rest ih =>
    have hx := (List.pairwise_cons.mp h).1
    unfold Store.put
    split
    · rename_i hlt
      have hnone : Store.lookup (x :: rest) r.bouquetId = none := by
        apply List.find?_eq_none.mpr
        intro y hy
        have : r.bouquetId.toNat < y.bouquetId.toNat := by
          rcases List.mem_cons.mp hy with hy | hy
          · rw [hy]; exact hlt
          · exact Nat.lt_trans hlt (hx y hy)
        simp only [beq_iff_eq]
        intro e
        rw [e] at this
        omega
      simp [hnone]
    · split
      · rename_i hlt heq
        simp [Store.lookup_cons, heq]
      · rename_i hlt hne
        have : x.bouquetId ≠ r.bouquetId := fun e => hne e.symm
        simp only [List.length_cons, ih (List.pairwise_cons.mp h).2, Store.lookup_cons, this, if_false]
        split <;> rfl

end Sys2Proof.Machine
end

