-- ==== Sys2Proof/Laws/Components.lean ====
section
/-! SUPPORT. For each shared operation one lemma that says once what it can do, so that later proofs cite it instead of
unfolding the operation. -/

namespace Sys2Proof.Machine

/-! ### The Section Decoder -/

/-- What the transport-stream loop can do at a cursor (spec/42_section_decoder.md R182 to R185): stop there, or emit the
entry there and go on at the position its declared length gives. -/
theorem entryLoop_cases (fuel : Nat) (rest : List Byte) (q : Nat) :
    let dl := twelveBits (byteAt rest 4) (byteAt rest 5)
    let own := slice rest 6 (6 + dl)
    let more := entryLoop fuel (rest.drop (6 + dl)) (q + 6 + dl)
    ((rest.length < 6 ∨ rest.length < 6 + dl) ∧
      entryLoop (fuel + 1) rest q = { entries := [], stop := q, events := [] }) ∨
    (6 + dl ≤ rest.length ∧ ∃ e : TransportStream,
      entryLoop (fuel + 1) rest q =
        { entries := e :: more.entries, stop := more.stop, events := parseEvents own ++ more.events } ∧
      e.transportStreamId.toNat = 256 * (byteAt rest 0).toNat + (byteAt rest 1).toNat ∧
      e.originalNetworkId.toNat = 256 * (byteAt rest 2).toNat + (byteAt rest 3).toNat ∧
      e.descriptors = (parseDescriptors own).descriptors) := by
  intro dl own more
  by_cases header : tsEntryHeader ≤ rest.length
  · have hdl : ∀ inside, len12 rest 4 inside = dl := len12_eq rest 4
    by_cases fits : 6 + dl ≤ rest.length
    · refine .inr ⟨fits, ⟨be16 rest 0 (Nat.lt_of_lt_of_le (by decide) header),
        be16 rest 2 (Nat.lt_of_lt_of_le (by decide) header), (parseDescriptors own).descriptors⟩, ?_,
        be16_toNat rest 0 _, be16_toNat rest 2 _, rfl⟩
      simp only [entryLoop, header, dif_pos, hdl]
      exact if_pos fits
    · refine .inl ⟨.inr (Nat.not_le.mp fits), ?_⟩
      simp only [entryLoop, header, dif_pos, hdl]
      exact if_neg fits
  · exact .inl ⟨.inl (Nat.not_le.mp header), by simp only [entryLoop, header, dif_neg, not_false_eq_true]⟩

/-- What the transport-stream loop with its header is (spec/42_section_decoder.md R180 to R185). -/
theorem transportLoop_eq {buffer span : List Byte} {bound p declaredEnd : Nat} {l : EntryLoop}
    (within : bound ≤ buffer.length)
    (hend : declaredEnd = p + 2 + twelveBits (byteAt buffer p) (byteAt buffer (p + 1)))
    (hspan : span = slice buffer (p + 2) (min declaredEnd bound)) (hl : l = entryLoop span.length span (p + 2)) :
    transportLoop buffer bound p within =
      if bound < p + 2 then { entries := [], events := [.secShort bound] }
      else
        { entries := l.entries
          events := clampEvents declaredEnd bound ++ l.events ++
            (if l.stop < min declaredEnd bound then [.tsLoopTrunc l.stop] else []) } := by
  subst hl hspan hend
  by_cases short : bound < p + 2 <;> simp [transportLoop, short, tsLoopLength_eq]

/-- What both loops of a section are (spec/42_section_decoder.md R177 to R185). -/
theorem sectionLoops_eq {buffer span : List Byte} {bound p : Nat} (within : bound ≤ buffer.length)
    (hp : p = 10 + twelveBits (byteAt buffer 8) (byteAt buffer 9)) (hspan : span = slice buffer 10 (min p bound)) :
    sectionLoops buffer bound within =
      if bound < 10 then { bouquetDescriptors := [], transportStreams := [], events := [.secShort bound] }
      else
        { bouquetDescriptors := (parseDescriptors span).descriptors
          transportStreams := (transportLoop buffer bound p within).entries
          events := clampEvents p bound ++ parseEvents span ++ (transportLoop buffer bound p within).events } := by
  subst hspan hp
  by_cases short : bound < 10 <;> simp [sectionLoops, short, bouquetLoopLength_eq]

/-- What the Section Decoder can answer, with the tests that lead there (spec/42_section_decoder.md R188). -/
theorem decodeSection_cases (buffer : List Byte) :
    (buffer.length < 8 ∧ decodeSection buffer = decodeFails (.decShort buffer.length)) ∨
    (8 ≤ buffer.length ∧
      ((byteAt buffer 0 ≠ batTableId ∧ decodeSection buffer = decodeFails (.decTableId (byteAt buffer 0))) ∨
       (byteAt buffer 0 = batTableId ∧
        ((buffer.length < declaredLength buffer ∧
            decodeSection buffer = decodeFails (.decLength buffer.length (declaredLength buffer))) ∨
         ∃ (within : declaredLength buffer ≤ buffer.length) (sec : BATSection),
            decodeSection buffer =
              { result := .ok sec, events := (sectionLoops buffer (declaredLength buffer) within).events } ∧
            sec.bouquetId.toNat = 256 * (byteAt buffer 3).toNat + (byteAt buffer 4).toNat ∧
            sec.versionNumber.toNat = (byteAt buffer 5).toNat / 2 % 32 ∧
            sec.sectionNumber = byteAt buffer 6 ∧ sec.lastSectionNumber = byteAt buffer 7 ∧
            sec.bouquetDescriptors = (sectionLoops buffer (declaredLength buffer) within).bouquetDescriptors ∧
            sec.transportStreams = (sectionLoops buffer (declaredLength buffer) within).transportStreams)))) := by
  by_cases short : buffer.length < sectionHeaderMin
  · exact .inl ⟨short, by simp [decodeSection, short]⟩
  · refine .inr ⟨Nat.not_lt.mp short, ?_⟩
    by_cases hid : byteAt buffer 0 = batTableId
    · refine .inr ⟨hid, ?_⟩
      by_cases exceeded : buffer.length < declaredLength buffer
      · exact .inl ⟨exceeded, by simp [decodeSection, short, hid, exceeded, expectedLengthOf_eq]⟩
      · refine .inr ⟨Nat.not_lt.mp exceeded, _, by simp [decodeSection, short, hid, exceeded, expectedLengthOf_eq]; rfl,
          be16_toNat buffer 3 (inHeader short (by decide)), versionNumberOf_toNat buffer (inHeader short (by decide)),
          rfl, rfl, rfl, rfl⟩
    · exact .inl ⟨hid, by simp [decodeSection, short, hid]⟩

/-! ### The aggregator -/

/-- What `merge` can do: one effect for each class of the operation table, each with the tests that select it. -/
theorem merge_cases (decoded : Option BATSection) (s : State) :
    (decoded = none ∧ mergeClass decoded s = .absent ∧ merge decoded s = mergeAbsentEffect s) ∨
    ∃ sec, decoded = some sec ∧
      ((mergeClass decoded s = .range ∧ (governingLast sec s).toNat < sec.sectionNumber.toNat ∧
          merge decoded s = mergeRangeEffect sec s) ∨
       ((governingLast sec s).toNat ≥ sec.sectionNumber.toNat ∧
        ((s.store.lookup sec.bouquetId = none ∧
            ((mergeClass decoded s = .ovf ∧ createOverflows sec s = true ∧ merge decoded s = mergeOvfEffect sec s) ∨
             (mergeClass decoded s = .create ∧ createOverflows sec s = false ∧
                merge decoded s = mergeCreateEffect sec s))) ∨
         ∃ r, s.store.lookup sec.bouquetId = some r ∧
            ((mergeClass decoded s = .dup ∧ seenBit r.seenSections sec.sectionNumber = true ∧
                merge decoded s = mergeDupEffect sec r s) ∨
             (mergeClass decoded s = .ovf ∧ seenBit r.seenSections sec.sectionNumber = false ∧
                mergeOverflows r sec s = true ∧ merge decoded s = mergeOvfEffect sec s) ∨
             (mergeClass decoded s = .new ∧ seenBit r.seenSections sec.sectionNumber = false ∧
                mergeOverflows r sec s = false ∧ merge decoded s = mergeNewEffect sec r s))))) := by
  cases decoded with
  | none => exact .inl ⟨rfl, rfl, rfl⟩
  | some sec =>
    refine .inr ⟨sec, rfl, ?_⟩
    by_cases hr : (governingLast sec s).toNat < sec.sectionNumber.toNat
    · exact .inl ⟨by simp [mergeClass, hr], hr, by simp [merge, hr]⟩
    · refine .inr ⟨Nat.not_lt.mp hr, ?_⟩
      cases hl : s.store.lookup sec.bouquetId with
      | none =>
        refine .inl ⟨rfl, ?_⟩
        cases ho : createOverflows sec s
        · exact .inr ⟨by simp [mergeClass, hr, hl, ho], rfl, by simp [merge, hr, hl, ho]⟩
        · exact .inl ⟨by simp [mergeClass, hr, hl, ho], rfl, by simp [merge, hr, hl, ho]⟩
      | some r =>
        refine .inr ⟨r, rfl, ?_⟩
        cases hs : seenBit r.seenSections sec.sectionNumber
        · cases ho : mergeOverflows r sec s
          · exact .inr (.inr ⟨by simp [mergeClass, hr, hl, hs, ho], rfl, rfl, by simp [merge, hr, hl, hs, ho]⟩)
          · exact .inr (.inl ⟨by simp [mergeClass, hr, hl, hs, ho], rfl, rfl, by simp [merge, hr, hl, hs, ho]⟩)
        · exact .inl ⟨by simp [mergeClass, hr, hl, hs], rfl, by simp [merge, hr, hl, hs]⟩

/-- What a merge writes: nothing, or `STORE_OVF`, or one record in the store. -/
theorem merge_state (decoded : Option BATSection) (s : State) :
    (merge decoded s).state = s ∨ (merge decoded s).state = s.withStoreOvf true ∨
      ∃ r, (merge decoded s).state = s.withStore (s.store.put r) := by
  rcases merge_cases decoded s with
    ⟨-, -, h⟩ | ⟨sec, -, ⟨-, -, h⟩ | ⟨-, ⟨-, ⟨-, -, h⟩ | ⟨-, -, h⟩⟩ | ⟨r, -, ⟨-, -, h⟩ | ⟨-, -, -, h⟩ | ⟨-, -, -, h⟩⟩⟩⟩
  · exact .inl (by rw [h]; rfl)
  · exact .inl (by rw [h]; rfl)
  · exact .inr (.inl (by rw [h]; rfl))
  · exact .inr (.inr ⟨createdRecord sec, by rw [h]; rfl⟩)
  · exact .inl (by rw [h]; rfl)
  · exact .inr (.inl (by rw [h]; rfl))
  · exact .inr (.inr ⟨mergedRecord r sec, by rw [h]; rfl⟩)

@[simp] theorem merge_params (d : Option BATSection) (s : State) : (merge d s).state.params = s.params := by
  rcases merge_state d s with h | h | ⟨r, h⟩ <;> rw [h] <;> rfl
@[simp] theorem merge_reasm (d : Option BATSection) (s : State) : (merge d s).state.reasm = s.reasm := by
  rcases merge_state d s with h | h | ⟨r, h⟩ <;> rw [h] <;> rfl
@[simp] theorem merge_input (d : Option BATSection) (s : State) : (merge d s).state.input = s.input := by
  rcases merge_state d s with h | h | ⟨r, h⟩ <;> rw [h] <;> rfl

/-- Every merge keeps the canonical form of the store. -/
theorem merge_keeps_canonical (d : Option BATSection) (s : State) (h : s.store.wf) :
    (merge d s).state.store.wf := by
  rcases merge_state d s with e | e | ⟨r, e⟩ <;> rw [e]
  · exact h
  · exact h
  · exact Store.put_wf r h

/-! ### Delivery and the completion check -/

@[simp] theorem deliver_params (b : List Byte) (s : State) : (deliver b s).state.params = s.params := merge_params _ s
@[simp] theorem deliver_reasm (b : List Byte) (s : State) : (deliver b s).state.reasm = s.reasm := merge_reasm _ s
@[simp] theorem deliver_input (b : List Byte) (s : State) : (deliver b s).state.input = s.input := merge_input _ s

/-- What the completion check can do: nothing in Idle or on a buffer still short, one delivery and Idle on a full one
(spec/43_section_reassembler.md R203, R212, R213). -/
theorem completionCheck_cases (s : State) :
    (s.reasm = .idle ∧ completionCheck s = { state := s, delivered := [], events := [] }) ∨
    ∃ expected sb, s.reasm = .collecting expected sb ∧
      ((sb.length < expected ∧ completionCheck s = { state := s, delivered := [], events := [] }) ∨
       (expected ≤ sb.length ∧
        completionCheck s =
          { state := setIdle (deliver sb s).state, delivered := [(deliver sb s).delivery],
            events := (deliver sb s).events })) := by
  unfold completionCheck
  cases s.reasm with
  | idle => exact .inl ⟨rfl, rfl⟩
  | collecting expected sb =>
    refine .inr ⟨expected, sb, rfl, ?_⟩
    by_cases h : expected ≤ sb.length
    · exact .inr ⟨h, by simp [h]⟩
    · exact .inl ⟨Nat.not_le.mp h, by simp [h]⟩

@[simp] theorem completionCheck_params (s : State) : (completionCheck s).state.params = s.params := by
  rcases completionCheck_cases s with ⟨-, h⟩ | ⟨_, _, -, ⟨-, h⟩ | ⟨-, h⟩⟩ <;> simp [h]
@[simp] theorem completionCheck_input (s : State) : (completionCheck s).state.input = s.input := by
  rcases completionCheck_cases s with ⟨-, h⟩ | ⟨_, _, -, ⟨-, h⟩ | ⟨-, h⟩⟩ <;> simp [h]

/-- A buffer that is short does nothing at the check. -/
theorem completionCheck_short {s : State} {expected : Nat} {sb : List Byte} (h : s.reasm = .collecting expected sb)
    (hs : sb.length < expected) : completionCheck s = { state := s, delivered := [], events := [] } := by
  simp [completionCheck, h, Nat.not_le.mpr hs]

/-- Nothing is delivered in Idle. -/
theorem completionCheck_idle {s : State} (h : s.reasm = .idle) :
    completionCheck s = { state := s, delivered := [], events := [] } := by
  simp [completionCheck, h]

/-! ### The reassembler -/

/-- What a start payload seeds the buffer with, or why it starts no section (spec/43_section_reassembler.md R204 to
R208). -/
theorem startSeed_cases (payload : List Byte) :
    let off := 1 + (byteAt payload 0).toNat
    (payload.length ≤ off ∧ startSeed payload = .error (.startPtrOverrun (byteAt payload 0) payload.length)) ∨
    (off < payload.length ∧
      ((byteAt payload off ≠ batTableId ∧ startSeed payload = .error (.startNotBat (byteAt payload off))) ∨
       (byteAt payload off = batTableId ∧
        ((payload.length - off < 3 ∧ startSeed payload = .error (.startHdrShort (payload.length - off))) ∨
         (3 ≤ payload.length - off ∧
          ∃ header, startSeed payload = .ok { bytes := payload.drop off, header := header }))))) := by
  intro off
  by_cases empty : payload.length = 0
  · obtain rfl := List.eq_nil_of_length_eq_zero empty
    exact .inl ⟨Nat.zero_le _, rfl⟩
  · by_cases h1 : payload.length ≤ off
    · refine .inl ⟨h1, ?_⟩
      have : payload.length ≤ 1 + (byteAt payload 0).toNat := h1
      simp [startSeed, empty, sectionOffset, this]
    · refine .inr ⟨Nat.not_le.mp h1, ?_⟩
      have h1' : ¬ payload.length ≤ 1 + (byteAt payload 0).toNat := h1
      by_cases h2 : byteAt payload off = batTableId
      · refine .inr ⟨h2, ?_⟩
        have h2' : byteAt payload (1 + (byteAt payload 0).toNat) = batTableId := h2
        by_cases h3 : payload.length - off < 3
        · refine .inl ⟨h3, ?_⟩
          have h3' : payload.length - (1 + (byteAt payload 0).toNat) < 3 := h3
          simp [startSeed, empty, sectionOffset, h1', h2', h3', off]
        · have h3' : ¬ payload.length - (1 + (byteAt payload 0).toNat) < 3 := h3
          refine .inr ⟨Nat.not_lt.mp h3, by rw [List.length_drop]; exact Nat.not_lt.mp h3, ?_⟩
          simp [startSeed, empty, sectionOffset, h1', h2', h3', off]
      · have h2' : byteAt payload (1 + (byteAt payload 0).toNat) ≠ batTableId := h2
        exact .inl ⟨h2, by simp [startSeed, empty, sectionOffset, h1', h2', off]⟩

/-- A payload written from the operands of SEC.BEGIN seeds the buffer with its section bytes
(spec/30_encoding.md R86, R87). -/
theorem startSeed_written {ptr : Byte} {pre sec : List Byte} (hp : pre.length = ptr.toNat)
    (hid : byteAt sec 0 = batTableId) (h3 : 3 ≤ sec.length) :
    startSeed (ptr :: (pre ++ sec)) = .ok { bytes := sec, header := h3 } := by
  have hdrop : (ptr :: (pre ++ sec)).drop (1 + ptr.toNat) = sec := by
    rw [Nat.add_comm, List.drop_succ_cons, ← hp, List.drop_left]
  have hat : byteAt (ptr :: (pre ++ sec)) (1 + ptr.toNat) = batTableId := by
    rw [← hid, Nat.add_comm, byteAt_cons_succ, ← hp]; exact byteAt_append_right pre sec 0
  have hlen : (ptr :: (pre ++ sec)).length = 1 + ptr.toNat + sec.length := by simp; omega
  rcases startSeed_cases (ptr :: (pre ++ sec)) with ⟨h, -⟩ | ⟨-, ⟨h, -⟩ | ⟨-, ⟨h, -⟩ | ⟨-, header, h⟩⟩⟩
  · rw [hlen, byteAt_cons_zero] at h; omega
  · exact absurd hat h
  · rw [hlen, byteAt_cons_zero] at h; omega
  · rw [h]; simp [hdrop]

/-- What an invocation of the reassembler is, by `is_start`, the payload and `fsm` (spec/43_section_reassembler.md
R202). -/
theorem reassemble_cases (payload : List Byte) (isStart : Bool) (s : State) :
    (isStart = true ∧ ∃ ev, startSeed payload = .error ev ∧ reassemble payload isStart s = skipStart ev s) ∨
    (isStart = true ∧ ∃ seed, startSeed payload = .ok seed ∧ reassemble payload isStart s = beginSection seed s) ∨
    (isStart = false ∧ s.reasm = .idle ∧ reassemble payload isStart s = ignorePayload s) ∨
    (isStart = false ∧ ∃ expected sb, s.reasm = .collecting expected sb ∧
      reassemble payload isStart s = appendPayload expected sb payload s) := by
  cases isStart
  · cases h : s.reasm with
    | idle => exact .inr (.inr (.inl ⟨rfl, rfl, by simp [reassemble, contPayload, h]⟩))
    | collecting e sb => exact .inr (.inr (.inr ⟨rfl, e, sb, rfl, by simp [reassemble, contPayload, h]⟩))
  · cases h : startSeed payload with
    | ok seed => exact .inr (.inl ⟨rfl, seed, rfl, by simp [reassemble, startPayload, h]⟩)
    | error ev => exact .inl ⟨rfl, ev, rfl, by simp [reassemble, startPayload, h]⟩

@[simp] theorem beginSection_params (seed : Seed) (s : State) : (beginSection seed s).state.params = s.params := by
  simp [beginSection]
@[simp] theorem beginSection_input (seed : Seed) (s : State) : (beginSection seed s).state.input = s.input := by
  simp [beginSection]
@[simp] theorem skipStart_params (ev : Event) (s : State) : (skipStart ev s).state.params = s.params := by
  simp [skipStart]
@[simp] theorem skipStart_input (ev : Event) (s : State) : (skipStart ev s).state.input = s.input := by
  simp [skipStart]
@[simp] theorem appendPayload_params (e : Nat) (sb p : List Byte) (s : State) :
    (appendPayload e sb p s).state.params = s.params := by
  simp [appendPayload]
@[simp] theorem appendPayload_input (e : Nat) (sb p : List Byte) (s : State) :
    (appendPayload e sb p s).state.input = s.input := by
  simp [appendPayload]
@[simp] theorem reassemble_params (p : List Byte) (b : Bool) (s : State) :
    (reassemble p b s).state.params = s.params := by
  rcases reassemble_cases p b s with ⟨-, _, -, h⟩ | ⟨-, _, -, h⟩ | ⟨-, -, h⟩ | ⟨-, _, _, -, h⟩ <;> rw [h] <;>
    simp [ignorePayload]
@[simp] theorem reassemble_input (p : List Byte) (b : Bool) (s : State) :
    (reassemble p b s).state.input = s.input := by
  rcases reassemble_cases p b s with ⟨-, _, -, h⟩ | ⟨-, _, -, h⟩ | ⟨-, -, h⟩ | ⟨-, _, _, -, h⟩ <;> rw [h] <;>
    simp [ignorePayload]

/-- The second-level operations by themselves are the reassembler on their payload. -/
theorem execSecBegin_eq (ptr : Byte) (pre sec : List Byte) (s : State) :
    execSecBegin ptr pre sec s = finishReasm (reassemble (ptr :: (pre ++ sec)) true s) := by
  cases h : startSeed (ptr :: (pre ++ sec)) <;> simp [execSecBegin, reassemble, startPayload, h]
theorem execSecSkip_eq (payload : List Byte) (s : State) :
    execSecSkip payload s = finishReasm (reassemble payload true s) := by
  cases h : startSeed payload <;> simp [execSecSkip, reassemble, startPayload, h]
theorem execSecAppend_eq (payload : List Byte) (s : State) :
    execSecAppend payload s = finishReasm (reassemble payload false s) := by
  cases h : s.reasm <;> simp [execSecAppend, reassemble, contPayload, h]
theorem execSecIgnore_eq (payload : List Byte) (s : State) :
    execSecIgnore payload s = finishReasm (reassemble payload false s) := by
  cases h : s.reasm <;> simp [execSecIgnore, reassemble, contPayload, h]

/-- The MERGE operations by themselves are the aggregator on their section. -/
theorem execMergeCreate_eq (sec : BATSection) (s : State) :
    execMergeCreate sec s = finishMerge (merge (some sec) s) := by
  unfold execMergeCreate
  split
  · rename_i h
    rcases merge_cases (some sec) s with ⟨h', -⟩ | ⟨sec', e, hc⟩
    · cases h'
    · cases e
      rw [h] at hc
      rcases hc with ⟨h', -⟩ | ⟨-, ⟨-, ⟨h', -⟩ | ⟨-, -, hm⟩⟩ | ⟨r, -, ⟨h', -⟩ | ⟨h', -⟩ | ⟨h', -⟩⟩⟩ <;>
        first
          | cases h'
          | rw [hm]
  · rfl
theorem execMergeRange_eq (sec : BATSection) (s : State) :
    execMergeRange sec s = finishMerge (merge (some sec) s) := by
  unfold execMergeRange
  split
  · rename_i h
    rcases merge_cases (some sec) s with ⟨h', -⟩ | ⟨sec', e, hc⟩
    · cases h'
    · cases e
      rw [h] at hc
      rcases hc with ⟨-, -, hm⟩ | ⟨-, ⟨-, ⟨h', -⟩ | ⟨h', -⟩⟩ | ⟨r, -, ⟨h', -⟩ | ⟨h', -⟩ | ⟨h', -⟩⟩⟩ <;>
        first
          | cases h'
          | rw [hm]
  · rfl
theorem execMergeOvf_eq (sec : BATSection) (s : State) :
    execMergeOvf sec s = finishMerge (merge (some sec) s) := by
  unfold execMergeOvf
  split
  · rename_i h
    rcases merge_cases (some sec) s with ⟨h', -⟩ | ⟨sec', e, hc⟩
    · cases h'
    · cases e
      rw [h] at hc
      rcases hc with ⟨h', -⟩ | ⟨-, ⟨-, ⟨-, -, hm⟩ | ⟨h', -⟩⟩ | ⟨r, -, ⟨h', -⟩ | ⟨-, -, -, hm⟩ | ⟨h', -⟩⟩⟩ <;>
        first
          | cases h'
          | rw [hm]
  · rfl
theorem execMergeNew_eq (sec : BATSection) (s : State) :
    execMergeNew sec s = finishMerge (merge (some sec) s) := by
  unfold execMergeNew
  split
  · rename_i r h hl
    rcases merge_cases (some sec) s with ⟨h', -⟩ | ⟨sec', e, hc⟩
    · cases h'
    · cases e
      rw [h, hl] at hc
      rcases hc with ⟨h', -⟩ | ⟨-, ⟨h', -⟩ | ⟨r', hr, ⟨h', -⟩ | ⟨h', -⟩ | ⟨-, -, -, hm⟩⟩⟩
      · cases h'
      · cases h'
      · cases h'
      · cases h'
      · cases hr; rw [hm]
  · rfl
theorem execMergeDup_eq (sec : BATSection) (s : State) :
    execMergeDup sec s = finishMerge (merge (some sec) s) := by
  unfold execMergeDup
  split
  · rename_i r h hl
    rcases merge_cases (some sec) s with ⟨h', -⟩ | ⟨sec', e, hc⟩
    · cases h'
    · cases e
      rw [h, hl] at hc
      rcases hc with ⟨h', -⟩ | ⟨-, ⟨h', -⟩ | ⟨r', hr, ⟨-, -, hm⟩ | ⟨h', -⟩ | ⟨h', -⟩⟩⟩
      · cases h'
      · cases h'
      · cases hr; rw [hm]
      · cases h'
      · cases h'
  · rfl

/-! ### The whole reassembler and the whole aggregator as selected operations -/

/-- The operation a payload selects, run by itself, is the reassembler on that payload (spec/30_encoding.md R99). -/
theorem exec_decodePayload (isStart : Bool) (payload : List Byte) (s : State) :
    exec (decodePayload (collectingFlag s) isStart payload) s = finishReasm (reassemble payload isStart s) := by
  cases isStart
  · cases h : collectingFlag s
    · exact execSecIgnore_eq payload s
    · exact execSecAppend_eq payload s
  · simp only [decodePayload, if_true, decodeStartPayload]
    split
    · exact execSecSkip_eq [] s
    · rename_i ptr tail
      split
      · rename_i t u v more heq
        split
        · have hp : tail.take ptr.toNat ++ t :: u :: v :: more = tail := by
            rw [← heq, List.take_append_drop]
          exact (execSecBegin_eq ptr (tail.take ptr.toNat) (t :: u :: v :: more) s).trans (by rw [hp])
        · exact execSecSkip_eq _ _
      · exact execSecSkip_eq _ _

/-- The operation the store selects, run by itself, is the aggregator (spec/30_encoding.md R99, third level). -/
theorem exec_selectMerge (decoded : Option BATSection) (s : State) :
    exec (selectMerge decoded s) s = finishMerge (merge decoded s) := by
  cases decoded with
  | none => rfl
  | some sec =>
    simp only [selectMerge]
    cases h : mergeClass (some sec) s with
    | absent =>
      rcases merge_cases (some sec) s with ⟨h', -⟩ | ⟨sec', e, hc⟩
      · cases h'
      · cases e
        rw [h] at hc
        rcases hc with ⟨h', -⟩ | ⟨-, ⟨-, ⟨h', -⟩ | ⟨h', -⟩⟩ | ⟨r, -, ⟨h', -⟩ | ⟨h', -⟩ | ⟨h', -⟩⟩⟩ <;> cases h'
    | range => exact execMergeRange_eq sec s
    | dup => exact execMergeDup_eq sec s
    | ovf => exact execMergeOvf_eq sec s
    | create => exact execMergeCreate_eq sec s
    | new => exact execMergeNew_eq sec s

/-- The aggregator does not read the reassembler. -/
theorem merge_withReasm (d : Option BATSection) (s : State) (x : Reassembler) :
    merge d (s.withReasm x) = { merge d s with state := (merge d s).state.withReasm x } := by
  cases d with
  | none => rfl
  | some sec =>
    have hg : governingLast sec (s.withReasm x) = governingLast sec s := rfl
    have ho : createOverflows sec (s.withReasm x) = createOverflows sec s := rfl
    have hm : ∀ r, mergeOverflows r sec (s.withReasm x) = mergeOverflows r sec s := fun _ => rfl
    by_cases hr : (governingLast sec s).toNat < sec.sectionNumber.toNat
    · simp only [merge, hg, hr, if_true]; rfl
    · cases h : Store.lookup s.store sec.bouquetId with
      | none => cases h2 : createOverflows sec s <;> simp [merge, hg, hr, h, ho, h2] <;> rfl
      | some r =>
        cases h3 : seenBit r.seenSections sec.sectionNumber <;> cases h2 : mergeOverflows r sec s <;>
          simp [merge, hg, hr, h, hm, h2, h3] <;> rfl

/-- A delivery does not read the reassembler. -/
theorem deliver_withReasm (b : List Byte) (s : State) (x : Reassembler) :
    deliver b (s.withReasm x) = { deliver b s with state := (deliver b s).state.withReasm x } := by
  simp [deliver, merge_withReasm]

/-! ### Packets and the step -/

/-- What the demultiplexer can answer, with the tests that lead there (spec/40_packet_demux.md R131, R132). -/
theorem demux_cases (block : List Byte) (targetPid : Half) :
    (block.length ≠ packetSize ∧ demux block targetPid = .drop (.frameLen block.length)) ∨
    ∃ full : block.length = packetSize,
      ((byteAt block 0 ≠ syncByte ∧ demux block targetPid = .drop (.frameSync (byteAt block 0))) ∨
       (byteAt block 0 = syncByte ∧
        (((pidOf block full).setWidth 16 ≠ targetPid ∧
            demux block targetPid = .drop (.pidMismatch (pidOf block full))) ∨
         ((pidOf block full).setWidth 16 = targetPid ∧
          (((afcOf block full = 0#2 ∨ afcOf block full = 2#2) ∧
              demux block targetPid = .drop (.noPayload (afcOf block full))) ∨
           (afcOf block full = 1#2 ∧
              demux block targetPid = .pass (block.drop 4) (isStartFlag (byteAt block 1))) ∨
           (afcOf block full = 3#2 ∧ 183 ≤ (byteAt block 4).toNat ∧
              demux block targetPid = .drop (.afOverrun (byteAt block 4))) ∨
           (afcOf block full = 3#2 ∧ (byteAt block 4).toNat ≤ 182 ∧
              demux block targetPid =
                .pass (block.drop (5 + (byteAt block 4).toNat)) (isStartFlag (byteAt block 1)))))))) := by
  by_cases full : block.length = packetSize
  · refine .inr ⟨full, ?_⟩
    have unfolded : demux block targetPid = demuxPacket block full targetPid := dif_pos full
    rw [unfolded]
    by_cases h2 : byteAt block 0 = syncByte
    · refine .inr ⟨h2, ?_⟩
      by_cases h3 : (pidOf block full).setWidth 16 = targetPid
      · refine .inr ⟨h3, ?_⟩
        have h4 : ∀ a : BitVec 2, a = 0#2 ∨ a = 1#2 ∨ a = 2#2 ∨ a = 3#2 := by decide
        rcases h4 (afcOf block full) with h | h | h | h
        · exact .inl ⟨.inl h, by simp [demuxPacket, h2, h3, h]⟩
        · exact .inr (.inl ⟨h, by simp [demuxPacket, h2, h3, h, packetSize]⟩)
        · exact .inl ⟨.inr h, by simp [demuxPacket, h2, h3, h]⟩
        · by_cases h5 : 183 ≤ (byteAt block 4).toNat
          · have h6 : packetSize ≤ afPayloadOffset (byteAt block 4) := by unfold packetSize afPayloadOffset; omega
            exact .inr (.inr (.inl ⟨h, h5, by simp [demuxPacket, h2, h3, h, h6]⟩))
          · have h6 : ¬ packetSize ≤ 5 + (byteAt block 4).toNat := by unfold packetSize; omega
            exact .inr (.inr (.inr ⟨h, by omega, by simp [demuxPacket, h2, h3, h, afPayloadOffset, h6]⟩))
      · exact .inl ⟨h3, by simp [demuxPacket, h2, h3]⟩
    · exact .inl ⟨h2, by simp [demuxPacket, h2]⟩
  · exact .inl ⟨full, by simp [demux, full]⟩

/-- A packet after an adaptation field (spec/40_packet_demux.md R140): no payload, or the bytes after the field. -/
theorem passAfterField_cases (afLen : Byte) (rest : List Byte) (isStart : Bool) (s : State) :
    (183 ≤ afLen.toNat ∧ passAfterField afLen rest isStart s = dropBlock (.afOverrun afLen) s) ∨
    (afLen.toNat ≤ 182 ∧ passAfterField afLen rest isStart s = passPayload (rest.drop afLen.toNat) isStart s) := by
  by_cases h : 183 ≤ afLen.toNat
  · exact .inl ⟨h, if_pos (by unfold packetSize afPayloadOffset; omega)⟩
  · exact .inr ⟨by omega, if_neg (by unfold packetSize afPayloadOffset; omega)⟩

/-- What a PKT is: a drop, or a payload handed on. -/
theorem execPkt_cases (block : List Byte) (s : State) :
    (∃ ev, demux block s.params.targetPid = .drop ev ∧ execPkt block s = dropBlock ev s) ∨
    ∃ payload isStart, demux block s.params.targetPid = .pass payload isStart ∧
      execPkt block s = passPayload payload isStart s := by
  unfold execPkt
  cases h : demux block s.params.targetPid with
  | drop ev => exact .inl ⟨ev, rfl, rfl⟩
  | pass p b => exact .inr ⟨p, b, rfl, rfl⟩

/-- What a step is: nothing while nothing is presented, else the operation presented. -/
theorem step_cases (s : State) :
    (s.input = [] ∧ step s = .next s) ∨
    ∃ op rest, s.input = op :: rest ∧ step s = exec (decodeOp s.params.targetPid op) (s.withInput rest) := by
  cases h : s.input with
  | nil => exact .inl ⟨rfl, by simp [step, fetchOp, h]⟩
  | cons op rest => exact .inr ⟨op, rest, rfl, by simp [step, fetchOp, h]⟩

/-- The operation a step runs is a packet class, RESET or READ. -/
theorem decodeOp_pkt (targetPid : Half) (block : List Byte) :
    decodeOp targetPid (.pkt block) = decodeBlock targetPid block := rfl

end Sys2Proof.Machine
end

