-- ==== Sys2Proof/Laws/PerInstr.lean ====
section
/-! SUPPORT. Statements about every instruction, proved constructor by constructor. -/

namespace Sys2Proof.Laws

/-- The sizes spec/30_encoding.md R80 gives the formats: 188 bytes for a packet (a block of another length is PKT.BADLEN
and nothing else), 1 to 184 for a payload, a buffer within `BUF_CAP` (spec/43_section_reassembler.md R226), a
descriptor span within a 12-bit length. -/
def sizeOfFormat (i : Instr) : Encoded → Prop
  | .block bytes => bytes.length = 188 ∨ i = .pktBadLen bytes
  | .payload _ bytes => 1 ≤ bytes.length ∧ bytes.length ≤ 184
  | .delivery bytes => 3 ≤ bytes.length ∧ bytes.length ≤ 4281
  | .sectionBuffer bytes => bytes.length ≤ 4281
  | .span bytes => bytes.length ≤ 4095
  | .decoded _ => True
  | .transaction _ => True

/-- A well-formed instruction is written in the size of its format. -/
def EncodedFormat.Statement (i : Instr) : Prop :=
  ∀ targetPid : Half, i.wf targetPid = true → sizeOfFormat i (encode targetPid i)

theorem EncodedFormat.pktBadLen (block : List Byte) : EncodedFormat.Statement (.pktBadLen block) :=
  fun _ _ => .inr rfl

theorem EncodedFormat.pktStartAfc01 (bits : IgnoredBits) (payload : List Byte) :
    EncodedFormat.Statement (.pktStartAfc01 bits payload) := by
  intro t h
  simp [Instr.wf] at h
  simp [encode, sizeOfFormat, encodePacket, h.2]

theorem EncodedFormat.pktContAfc01 (bits : IgnoredBits) (payload : List Byte) :
    EncodedFormat.Statement (.pktContAfc01 bits payload) := by
  intro t h
  simp [Instr.wf] at h
  simp [encode, sizeOfFormat, encodePacket, h.2]

theorem EncodedFormat.pktStartAfc11 (bits : IgnoredBits) (afLen : Byte) (rest : List Byte) :
    EncodedFormat.Statement (.pktStartAfc11 bits afLen rest) := by
  intro t h
  simp [Instr.wf] at h
  simp [encode, sizeOfFormat, encodePacket, h.2]

theorem EncodedFormat.pktContAfc11 (bits : IgnoredBits) (afLen : Byte) (rest : List Byte) :
    EncodedFormat.Statement (.pktContAfc11 bits afLen rest) := by
  intro t h
  simp [Instr.wf] at h
  simp [encode, sizeOfFormat, encodePacket, h.2]

theorem EncodedFormat.pktNoPayloadAfc00 (bits : IgnoredBits) (pusi : Bool) (rest : List Byte) :
    EncodedFormat.Statement (.pktNoPayloadAfc00 bits pusi rest) := by
  intro t h
  simp [Instr.wf] at h
  simp [encode, sizeOfFormat, encodePacket, h.2]

theorem EncodedFormat.pktNoPayloadAfc10 (bits : IgnoredBits) (pusi : Bool) (rest : List Byte) :
    EncodedFormat.Statement (.pktNoPayloadAfc10 bits pusi rest) := by
  intro t h
  simp [Instr.wf] at h
  simp [encode, sizeOfFormat, encodePacket, h.2]

theorem EncodedFormat.pktOtherPid (bits : IgnoredBits) (pusi : Bool) (pid : BitVec 13) (afc : BitVec 2)
    (rest : List Byte) : EncodedFormat.Statement (.pktOtherPid bits pusi pid afc rest) := by
  intro t h
  simp [Instr.wf] at h
  simp [encode, sizeOfFormat, encodePacket, h.2]

theorem EncodedFormat.pktBadSync (first : Byte) (rest : List Byte) :
    EncodedFormat.Statement (.pktBadSync first rest) := by
  intro t h
  simp [Instr.wf] at h
  simp [encode, sizeOfFormat, h.2]

theorem EncodedFormat.secBegin (ptr : Byte) (pre sec : List Byte) :
    EncodedFormat.Statement (.secBegin ptr pre sec) := by
  intro t h
  simp [Instr.wf] at h
  simp [encode, sizeOfFormat]
  omega

theorem EncodedFormat.secSkip (payload : List Byte) : EncodedFormat.Statement (.secSkip payload) := by
  intro t h
  simp [Instr.wf, payloadLength] at h
  simp [encode, sizeOfFormat]
  omega

theorem EncodedFormat.secAppend (payload : List Byte) : EncodedFormat.Statement (.secAppend payload) := by
  intro t h
  simp [Instr.wf, payloadLength] at h
  simp [encode, sizeOfFormat]
  omega

theorem EncodedFormat.secIgnore (payload : List Byte) : EncodedFormat.Statement (.secIgnore payload) := by
  intro t h
  simp [Instr.wf, payloadLength] at h
  simp [encode, sizeOfFormat]
  omega

theorem EncodedFormat.secDeliver (buffer : List Byte) : EncodedFormat.Statement (.secDeliver buffer) := by
  intro t h
  simp only [Instr.wf, Bool.and_eq_true, decide_eq_true_eq] at h
  exact h

theorem EncodedFormat.sectionDecode (buffer : List Byte) : EncodedFormat.Statement (.sectionDecode buffer) := by
  intro t h
  simp only [Instr.wf, decide_eq_true_eq] at h
  exact h

theorem EncodedFormat.descParse (data : List Byte) : EncodedFormat.Statement (.descParse data) := by
  intro t h
  simp [Instr.wf] at h
  exact h

theorem EncodedFormat.mergeCreate (sec : BATSection) : EncodedFormat.Statement (.mergeCreate sec) :=
  fun _ _ => trivial
theorem EncodedFormat.mergeNew (sec : BATSection) : EncodedFormat.Statement (.mergeNew sec) := fun _ _ => trivial
theorem EncodedFormat.mergeDup (sec : BATSection) : EncodedFormat.Statement (.mergeDup sec) := fun _ _ => trivial
theorem EncodedFormat.mergeRange (sec : BATSection) : EncodedFormat.Statement (.mergeRange sec) := fun _ _ => trivial
theorem EncodedFormat.mergeOvf (sec : BATSection) : EncodedFormat.Statement (.mergeOvf sec) := fun _ _ => trivial
theorem EncodedFormat.mergeAbsent : EncodedFormat.Statement .mergeAbsent := fun _ _ => trivial
theorem EncodedFormat.pkt (block : List Byte) : EncodedFormat.Statement (.pkt block) := fun _ _ => trivial
theorem EncodedFormat.reset : EncodedFormat.Statement .reset := fun _ _ => trivial
theorem EncodedFormat.read (key : Option Half) : EncodedFormat.Statement (.read key) := fun _ _ => trivial

end Sys2Proof.Laws
end

