-- ==== Sys2Proof/Tests/Slice0.lean ====
section
/-! SUPPORT. The model's own tests. Expected values are the vectors of spec/95_test_vectors.md (VD, VC, VX, VR, VA, VB,
P) or words written out from the layouts of spec/30_encoding.md; a last part shows, for each statement with hypotheses,
concrete operands and states that meet them. -/

namespace Sys2Proof.Tests

open Sys2Proof Sys2Proof.Machine

-- One theorem after the other: tasks that wait for each other would each hold a thread and its stack.
set_option Elab.async false

/-! ### Data -/

/-- No ignored bit set. -/
def plainBits : IgnoredBits := { tei := false, prio := false, sc := 0#2, cc := 0#4 }
/-- Every ignored bit set (VD17). -/
def allBits : IgnoredBits := { tei := true, prio := true, sc := 3#2, cc := 15#4 }

def zeroBytes (n : Nat) : List Byte := List.replicate n 0#8
/-- The notation's padding (R100). -/
def padding (n : Nat) : List Byte := List.replicate n 0xFF#8

/-- VX1's buffer, `S26` of part 3. -/
def s26 : List Byte :=
  [0x4A, 0xF0, 0x17, 0x12, 0x34, 0xC7, 0x00, 0x00, 0xF0, 0x00, 0xF0, 0x0A, 0x00, 0x64, 0x00, 0x01, 0xF0, 0x04, 0x41,
   0x02, 0xAB, 0xCD, 0x00, 0x00, 0x00, 0x00]

/-- VX1's section, also the section of VA1. -/
def sectionA : BATSection :=
  { bouquetId := 0x1234, versionNumber := 3, sectionNumber := 0, lastSectionNumber := 0, bouquetDescriptors := [],
    transportStreams :=
      [{ transportStreamId := 0x64, originalNetworkId := 1, descriptors := [{ tag := 0x41, data := [0xAB, 0xCD] }] }] }

/-- VA5's section: section 1 of 2 of bouquet 7, one id twice. -/
def section7 : BATSection :=
  { bouquetId := 7, versionNumber := 1, sectionNumber := 1, lastSectionNumber := 1,
    bouquetDescriptors := [{ tag := 0x47, data := [0x41] }],
    transportStreams :=
      [{ transportStreamId := 0x64, originalNetworkId := 1, descriptors := [{ tag := 0x41, data := [0x01] }] },
       { transportStreamId := 0x64, originalNetworkId := 2, descriptors := [{ tag := 0x41, data := [0x02] }] }] }

/-- VA6's section: section 0 of bouquet 7, another version and another last number. -/
def section7b : BATSection :=
  { bouquetId := 7, versionNumber := 2, sectionNumber := 0, lastSectionNumber := 3,
    bouquetDescriptors := [{ tag := 0x47, data := [0x42] }],
    transportStreams :=
      [{ transportStreamId := 0x64, originalNetworkId := 9, descriptors := [{ tag := 0x5F, data := [0x03] }] },
       { transportStreamId := 0xC8, originalNetworkId := 1, descriptors := [] },
       { transportStreamId := 0xC8, originalNetworkId := 1, descriptors := [{ tag := 0x41, data := [0x04] }] }] }

/-- A section whose only descriptor has 256 data bytes: it has no encoding. -/
def sectionTooLong : BATSection :=
  { sectionA with bouquetDescriptors := [{ tag := 0x10, data := zeroBytes 256 }] }

/-- The state after VA1. -/
def afterA : State := State.reset.withStore [recordCreatedBy sectionA]
/-- The state after VA5. -/
def after7 : State := State.reset.withStore [recordCreatedBy section7]
/-- The state after step 1 of VR4. -/
def afterVR4 : State := State.reset.withReasm (.collecting 26 (s26.take 3))
/-- A buffer that is already full: no run reaches it (R27). -/
def fullBuffer : State := State.reset.withReasm (.collecting 3 [0x4A, 0xF0, 0x00])
/-- An instance with room for one record, and that record (as in VA11). -/
def smallStore : State :=
  { State.reset with params := { Params.default with capBouquets := some 1 }, store := [recordCreatedBy section7] }
/-- An instance with room for two entries in a record, and a record that holds two (as in VA13). -/
def capTsOne : State :=
  { State.reset with
    params := { Params.default with capTs := some 2 }, store := [recordCreatedBy section7] }

/-- Is the answer a next state with this property? -/
def answers (a : Answer) (p : State → Bool) : Bool :=
  match a with
  | .next t => p t
  | .fault _ => false
  | .refused _ => false

/-- Present one operation. -/
def present (op : HostOp) (s : State) : State := s.withInput [op]

/-! ### WellFormed refuses an ill-formed term for each check -/

theorem test_wf_refuses_block_forms :
    (Instr.pktBadLen (zeroBytes 188)).wf 0x11 = false ∧
    (Instr.pktStartAfc01 plainBits (zeroBytes 183)).wf 0x11 = false ∧
    (Instr.pktStartAfc01 plainBits (zeroBytes 184)).wf 0x2000 = false ∧
    (Instr.pktContAfc01 plainBits (zeroBytes 185)).wf 0x11 = false ∧
    (Instr.pktContAfc01 plainBits (zeroBytes 184)).wf 0x2000 = false ∧
    (Instr.pktStartAfc11 plainBits 0 (zeroBytes 184)).wf 0x11 = false ∧
    (Instr.pktStartAfc11 plainBits 0 (zeroBytes 183)).wf 0x2011 = false ∧
    (Instr.pktContAfc11 plainBits 0 (zeroBytes 182)).wf 0x11 = false ∧
    (Instr.pktContAfc11 plainBits 0 (zeroBytes 183)).wf 0x2011 = false ∧
    (Instr.pktNoPayloadAfc00 plainBits true (zeroBytes 183)).wf 0x11 = false ∧
    (Instr.pktNoPayloadAfc00 plainBits true (zeroBytes 184)).wf 0xFFFF = false ∧
    (Instr.pktNoPayloadAfc10 plainBits true (zeroBytes 183)).wf 0x11 = false ∧
    (Instr.pktNoPayloadAfc10 plainBits true (zeroBytes 184)).wf 0xFFFF = false ∧
    (Instr.pktOtherPid plainBits true 0x11 1 (zeroBytes 184)).wf 0x11 = false ∧
    (Instr.pktOtherPid plainBits true 0x12 1 (zeroBytes 183)).wf 0x11 = false ∧
    (Instr.pktBadSync 0x47 (zeroBytes 187)).wf 0x11 = false ∧
    (Instr.pktBadSync 0x48 (zeroBytes 186)).wf 0x11 = false := by decide +kernel

theorem test_wf_refuses_payload_forms :
    (Instr.secBegin 1 [] [0x4A, 0, 0]).wf 0x11 = false ∧
    (Instr.secBegin 0 [] [0x4A, 0]).wf 0x11 = false ∧
    (Instr.secBegin 0 [] [0x4B, 0, 0]).wf 0x11 = false ∧
    (Instr.secBegin 0 [] (0x4A :: zeroBytes 183)).wf 0x11 = false ∧
    (Instr.secSkip []).wf 0x11 = false ∧
    (Instr.secSkip [0, 0x4A, 0, 0]).wf 0x11 = false ∧
    (Instr.secAppend []).wf 0x11 = false ∧
    (Instr.secAppend (zeroBytes 185)).wf 0x11 = false ∧
    (Instr.secIgnore []).wf 0x11 = false ∧
    (Instr.secIgnore (zeroBytes 185)).wf 0x11 = false := by decide +kernel

theorem test_wf_refuses_section_forms :
    (Instr.secDeliver [0x4A, 0]).wf 0x11 = false ∧
    (Instr.secDeliver (zeroBytes 4282)).wf 0x11 = false ∧
    (Instr.sectionDecode (zeroBytes 4282)).wf 0x11 = false ∧
    (Instr.descParse (zeroBytes 4096)).wf 0x11 = false ∧
    (Instr.mergeCreate { sectionA with sectionNumber := 1 }).wf 0x11 = false ∧
    (Instr.mergeCreate sectionTooLong).wf 0x11 = false ∧
    (Instr.mergeNew sectionTooLong).wf 0x11 = false ∧
    (Instr.mergeDup sectionTooLong).wf 0x11 = false ∧
    (Instr.mergeRange sectionTooLong).wf 0x11 = false ∧
    (Instr.mergeOvf sectionTooLong).wf 0x11 = false := by decide +kernel

/-! ### Decoding: one word or byte string of every constructor, written from the layouts -/

/-- Sync byte, `tei pusi prio PID[12:8]`, PID[7:0], `sc AFC cc`, bit by bit (R81); 0x0011 is `00000 00010001`. -/
theorem test_decode_header_words :
    decodeTableWord 32 0b01000111_01000000_00010001_00010000 = some (.pktStartAfc01 plainBits (zeroBytes 184)) ∧
    decodeTableWord 32 0b01000111_11100000_00010001_11011111 = some (.pktStartAfc01 allBits (zeroBytes 184)) ∧
    decodeTableWord 32 0b01000111_00000000_00010001_00010000 = some (.pktContAfc01 plainBits (zeroBytes 184)) ∧
    decodeTableWord 32 0b01000111_01000000_00010001_00110000 = some (.pktStartAfc11 plainBits 0 (zeroBytes 183)) ∧
    decodeTableWord 32 0b01000111_00000000_00010001_00110000 = some (.pktContAfc11 plainBits 0 (zeroBytes 183)) ∧
    decodeTableWord 32 0b01000111_01000000_00010001_00000000 =
      some (.pktNoPayloadAfc00 plainBits true (zeroBytes 184)) ∧
    decodeTableWord 32 0b01000111_00000000_00010001_00100000 =
      some (.pktNoPayloadAfc10 plainBits false (zeroBytes 184)) ∧
    decodeTableWord 32 0b01000111_01000001_00010001_00010000 =
      some (.pktOtherPid plainBits true 0b00001_00010001 1 (zeroBytes 184)) := by decide +kernel

/-- VD7, VD6 and VD1: bad sync, bad length. -/
theorem test_decode_bad_framing :
    decodeBlock 0x11 ([0x48, 0x40, 0x11, 0x10] ++ padding 184) =
      .pktBadSync 0x48 ([0x40, 0x11, 0x10] ++ padding 184) ∧
    decodeBlock 0x11 [0x48, 0x40, 0x11] = .pktBadLen [0x48, 0x40, 0x11] ∧
    decodeTableWord 0 0 = some (.pktBadLen []) := by decide +kernel

/-- VD24 and VD26: the match follows `TARGET_PID`. -/
theorem test_decode_target_pid :
    decodeBlock 0x10 ([0x47, 0x00, 0x10, 0x10] ++ padding 184) = .pktContAfc01 plainBits (padding 184) ∧
    decodeBlock 0x2011 ([0x47, 0x00, 0x11, 0x10] ++ padding 184) =
      .pktOtherPid plainBits false 0x11 1 (padding 184) := by decide +kernel

/-- R86: pointer byte 2, two skipped bytes, section bytes; R99 for the others. -/
theorem test_decode_payloads :
    decodePayload false true [2, 0x11, 0x22, 0x4A, 0xF0, 0x17] = .secBegin 2 [0x11, 0x22] [0x4A, 0xF0, 0x17] ∧
    decodePayload true true [2, 0x11, 0x22, 0x42, 0xF0, 0x17] = .secSkip [2, 0x11, 0x22, 0x42, 0xF0, 0x17] ∧
    decodePayload true true [0, 0x4A, 0xF0] = .secSkip [0, 0x4A, 0xF0] ∧
    decodePayload true false [1, 2] = .secAppend [1, 2] ∧
    decodePayload false false [1, 2] = .secIgnore [1, 2] := by decide

theorem test_decode_spans :
    decode 0x11 true (.delivery s26) = .ok (.secDeliver s26) ∧
    decode 0x11 true (.sectionBuffer s26) = .ok (.sectionDecode s26) ∧
    decode 0x11 true (.span [9, 2, 0xAA, 0xBB]) = .ok (.descParse [9, 2, 0xAA, 0xBB]) ∧
    decode 0x11 true (.transaction (.pkt [1])) = .ok (.pkt [1]) ∧
    decode 0x11 true (.transaction .reset) = .ok .reset ∧
    decode 0x11 true (.transaction (.read (some 7))) = .ok (.read (some 7)) := ⟨rfl, rfl, rfl, rfl, rfl, rfl⟩

/-- The third level of the operation map: what the store selects (VA1, VA2, VA4, VA6, VA9, VA11). -/
theorem test_select_merge :
    selectMerge (some sectionA) State.reset = .mergeCreate sectionA ∧
    selectMerge (some sectionA) afterA = .mergeDup sectionA ∧
    selectMerge (some { section7 with sectionNumber := 2 }) State.reset =
      .mergeRange { section7 with sectionNumber := 2 } ∧
    selectMerge (some section7b) after7 = .mergeNew section7b ∧
    selectMerge none after7 = .mergeAbsent ∧
    selectMerge (some sectionA) smallStore = .mergeOvf sectionA := by decide +kernel

/-! ### Packets -/

theorem test_pktBadLen : exec (.pktBadLen [0x48, 0x40, 0x11]) afterVR4 =
    .next (afterVR4.withOutput (droppedResult (.frameLen 3))) := rfl

theorem test_pktBadSync : exec (.pktBadSync 0x48 (padding 187)) afterVR4 =
    .next (afterVR4.withOutput (droppedResult (.frameSync 0x48))) := rfl

theorem test_pktOtherPid : exec (.pktOtherPid plainBits true 0x111 1 (padding 184)) afterVR4 =
    .next (afterVR4.withOutput (droppedResult (.pidMismatch 0x111))) := rfl

theorem test_pktNoPayloadAfc00 : exec (.pktNoPayloadAfc00 plainBits true (padding 184)) afterVR4 =
    .next (afterVR4.withOutput (droppedResult (.noPayload 0))) := rfl

theorem test_pktNoPayloadAfc10 : exec (.pktNoPayloadAfc10 plainBits false (padding 184)) afterVR4 =
    .next (afterVR4.withOutput (droppedResult (.noPayload 2))) := rfl

/-- VR5 step 1: a section of length 0 is delivered at once and reads its header beyond `E`. -/
theorem test_pktStartAfc01 :
    answers (exec (.pktStartAfc01 plainBits ([0, 0x4A, 0xF0, 0x00] ++ padding 180)) State.reset) (fun t =>
      t.reasm == .idle && (t.store.map fun r => (r.bouquetId, r.versionNumber, r.lastSectionNumber, r.complete)) ==
        [(0xFFFF, 31, 255, false)]) = true := by decide +kernel

/-- VR4 step 2: the continuation completes the section. -/
theorem test_pktContAfc01 :
    answers (exec (.pktContAfc01 plainBits (s26.drop 3 ++ padding 161)) afterVR4) (fun t =>
      t.reasm == .idle && t.store == [recordCreatedBy sectionA]) = true := by decide +kernel

/-- VR5 step 2: six payload bytes, a seed of five, too short to decode. -/
theorem test_pktStartAfc11 :
    answers (exec (.pktStartAfc11 plainBits 177 (zeroBytes 177 ++ [0, 0x4A, 0xF0, 0x00, 0xFF, 0xFF])) State.reset)
      (fun t => t.output == .step
        { demux := .payload 6 true, reasm := .begin,
          delivered := [{ decode := .fail (.decShort 5), merge := .absent }], events := [.decShort 5] }) = true := by
  decide +kernel

/-- VD23: an adaptation field that leaves no payload; VD20: one that leaves twenty bytes. -/
theorem test_pktContAfc11 :
    exec (.pktContAfc11 plainBits 255 (padding 183)) afterVR4 =
      .next (afterVR4.withOutput (droppedResult (.afOverrun 255))) ∧
    answers (exec (.pktContAfc11 plainBits 163 (padding 183)) State.reset) (fun t =>
      t.output == .step { demux := .payload 20 false, reasm := .ignore, delivered := [], events := [.contIdle] }) =
      true := ⟨rfl, by decide +kernel⟩

/-- VD17's block: the payload starts a section that declares `FF FF`, so 4098 bytes (R208). -/
theorem test_pkt :
    answers (exec (.pkt ([0x47, 0xE0, 0x11, 0xDF, 0x00, 0x4A] ++ padding 182)) State.reset) (fun t =>
      t.reasm == .collecting 4098 (0x4A :: padding 182)) = true := by decide +kernel

/-! ### The reassembler -/

/-- VR4 step 1: exactly the three header bytes. -/
theorem test_secBegin :
    answers (exec (.secBegin 2 [0, 0] [0x4A, 0xF0, 0x17]) State.reset) (fun t => t.reasm == afterVR4.reasm) = true := by
  decide

/-- VR6 steps 2 and VR3 step 5: another table drops the collection; the table id is tested before the length. -/
theorem test_secSkip :
    answers (exec (.secSkip [0, 0x42, 0xF0, 0x05]) afterVR4) (fun t =>
      t.reasm == .idle && t.output == .reasm
        { action := .skip (.startNotBat 0x42), delivered := [],
          events := [.startNotBat 0x42, .incompleteDropped 3 26] }) = true ∧
    answers (exec (.secSkip [0, 0x42]) State.reset) (fun t => t.output == .reasm
      { action := .skip (.startNotBat 0x42), delivered := [], events := [.startNotBat 0x42] }) = true := by decide

/-- One byte short of the section, then the byte that completes it. -/
theorem test_secAppend :
    answers (exec (.secAppend ((s26.drop 3).take 22)) afterVR4) (fun t => t.reasm == .collecting 26 (s26.take 25)) =
      true ∧
    answers (exec (.secAppend (s26.drop 3)) afterVR4) (fun t =>
      t.reasm == .idle && t.store == [recordCreatedBy sectionA]) = true := by decide +kernel

/-- VR1. -/
theorem test_secIgnore : exec (.secIgnore s26) State.reset = .next (State.reset.withOutput
    (.reasm { action := .ignore, delivered := [], events := [.contIdle] })) := rfl

/-- VX1 and VA1 in one delivery; VX2 delivers nothing to the aggregator. -/
theorem test_secDeliver :
    answers (exec (.secDeliver s26) State.reset) (fun t => t.output ==
      .delivery { decode := .ok sectionA, merge := .created 0x1234 true } []) = true ∧
    answers (exec (.secDeliver [0x4A, 0xF0, 0x04]) after7) (fun t =>
      t.store == after7.store && t.output ==
        .delivery { decode := .fail (.decShort 3), merge := .absent } [.decShort 3]) = true := by decide +kernel

/-! ### The decoders -/

/-- VX1. -/
theorem test_sectionDecode :
    answers (exec (.sectionDecode s26) State.reset) (fun t => t.output == .decoded (.ok sectionA) []) = true := by
  decide +kernel

/-- VX9: a clamped loop, a truncated descriptor in it, no second loop. VX18: a second loop cut at the section's end,
whose last four bytes make no entry. -/
theorem test_sectionDecode_clamps :
    answers (exec (.sectionDecode
      [0x4A, 0xF0, 0x11, 0, 7, 0xC1, 0, 0, 0xF0, 0xFF, 0x47, 2, 0x41, 0x42, 9, 5, 1, 2, 3, 4]) State.reset) (fun t =>
        match t.output with
        | .decoded (.ok sec) events =>
          sec.bouquetDescriptors == [{ tag := 0x47, data := [0x41, 0x42] }] && sec.transportStreams == [] &&
            events == [.loopClamp 265 20, .descTrunc 4, .secShort 20]
        | _ => false) = true ∧
    answers (exec (.sectionDecode (s26.take 10 ++ [0xFF, 0xFF] ++ s26.drop 12)) State.reset) (fun t =>
      t.output == .decoded (.ok sectionA) [.loopClamp 4107 26, .tsLoopTrunc 22]) = true := by decide +kernel

/-- VC7: the descriptor before the bad one is kept; VC4: a length byte without its value byte. -/
theorem test_descParse :
    exec (.descParse [0x47, 1, 0x41, 9, 3, 1, 2]) State.reset = .next (State.reset.withOutput
      (.parsed [{ tag := 0x47, data := [0x41] }] 3 [.descTrunc 3])) ∧
    exec (.descParse [9, 1]) State.reset = .next (State.reset.withOutput (.parsed [] 0 [.descTrunc 0])) := ⟨rfl, rfl⟩

/-! ### The aggregator -/

/-- VA5: the creating section's entries are taken over as they are. -/
theorem test_mergeCreate :
    answers (exec (.mergeCreate section7) State.reset) (fun t =>
      (t.store.map fun r => (r.seenSections, r.complete, r.transportStreams)) ==
        [(2#256, false, section7.transportStreams)]) = true := by decide +kernel

/-- VA6: version and last number stay, the first entry of the id is extended, the new id is added once. -/
theorem test_mergeNew :
    answers (exec (.mergeNew section7b) after7) (fun t => t.store ==
      [{ bouquetId := 7, versionNumber := 1, lastSectionNumber := 1, seenSections := 3#256, complete := true,
         bouquetDescriptors := [{ tag := 0x47, data := [0x41] }, { tag := 0x47, data := [0x42] }],
         transportStreams :=
           [{ transportStreamId := 0x64, originalNetworkId := 1,
              descriptors := [{ tag := 0x41, data := [1] }, { tag := 0x5F, data := [3] }] },
            { transportStreamId := 0x64, originalNetworkId := 2, descriptors := [{ tag := 0x41, data := [2] }] },
            { transportStreamId := 0xC8, originalNetworkId := 1, descriptors := [{ tag := 0x41, data := [4] }] }] }]) =
      true := by decide +kernel

/-- VA3: another version and content, still a duplicate. -/
theorem test_mergeDup :
    answers (exec (.mergeDup
      { sectionA with versionNumber := 4, bouquetDescriptors := [{ tag := 0x47, data := [0x58] }] }) afterA) (fun t => t.store == afterA.store &&
        t.output == .merged (.duplicate 0x1234 true) [.dupSection 0x1234 0]) = true := by decide +kernel

/-- VA4 and VA7: the section's own last number governs without a record, the record's with one. -/
theorem test_mergeRange :
    answers (exec (.mergeRange { section7 with sectionNumber := 2 }) State.reset) (fun t =>
      t.store == [] && t.output == .merged (.range 7) [.secnumRange 7 2 1]) = true ∧
    answers (exec (.mergeRange { section7b with sectionNumber := 2 }) after7) (fun t =>
      t.store == after7.store && t.output == .merged (.range 7) [.secnumRange 7 2 1]) = true := by decide +kernel

/-- VA11: a second bouquet where one fits; VA13: an entry too many. -/
theorem test_mergeOvf :
    answers (exec (.mergeOvf sectionA) smallStore) (fun t =>
      t.store == smallStore.store && t.storeOvf && t.output == .merged (.overflow 0x1234) [.storeOvf 0x1234]) = true ∧
    answers (exec (.mergeOvf section7b) capTsOne) (fun t => t.store == capTsOne.store && t.storeOvf) = true := by
  decide +kernel

/-- VA9. -/
theorem test_mergeAbsent : exec .mergeAbsent after7 = .next (after7.withOutput (.merged .absent [])) := rfl

/-! ### The host's other transactions and the step -/

/-- P7 step 4: RESET empties the store and clears `STORE_OVF`, the parameters stay. -/
theorem test_reset :
    exec .reset (smallStore.withStoreOvf true) =
      .next { State.reset with params := smallStore.params } := rfl

/-- P7 step 3 and P2 step 2. -/
theorem test_read :
    answers (exec (.read (some 9)) after7) (fun t => t.output ==
      .read (.record none) (statusOf after7)) = true ∧
    answers (exec (.read (some 7)) afterVR4) (fun t => t.output == .read (.record none)
      { targetPid := 0x11, tableId := 0x4A, fsm := 1, expectedLength := some 26, sbLength := some 3,
        storeOvf := false }) = true := by decide +kernel

/-- VD15 and VD17 as the first operation after reset. -/
theorem test_withFetchWord :
    answers (step (State.reset.withFetchWord 32 0x47E011DF)) (fun t => t.output == .step
      { demux := .payload 184 true, reasm := .skip (.startNotBat 0), delivered := [], events := [.startNotBat 0] }) =
      true ∧
    answers (step (State.reset.withFetchWord 0 0)) (fun t => t.output == droppedResult (.frameLen 0)) = true ∧
    answers (step (State.reset.withFetchWord 8 0x4A)) (fun t =>
      t.output.deliveries.length == 1 && t.store.length == 1) = true := by decide +kernel

/-- The notation of R100 and R101: VD20's line and the bytes of VX1's BATSEC. -/
theorem test_notation :
    contAfLine 0x11 163 [0xAA, 0xBB] =
      some ([0x47, 0x00, 0x11, 0x30, 0xA3, 0x00] ++ padding 162 ++ [0xAA, 0xBB] ++ padding 18) ∧
    batsec sectionA 0 = s26 := by decide +kernel

/-- Codes and classes of R302. -/
theorem test_event_codes :
    (Event.frameLen 3).code = 0x01 ∧ (Event.incompleteDropped 1 2).code = 0x14 ∧ (Event.storeOvf 7).code = 0x32 ∧
    (Event.dupSection 7 0).errorClasses = [.duplicate] ∧ (Event.decLength 8 19).errorClasses = [.malformedHeader] ∧
    (Event.secShort 8).errorClasses = [.truncation, .spec 12] ∧
    (Event.loopClamp 265 20).errorClasses = [.truncation, .spec 13] ∧
    (Event.startHdrShort 2).errorClasses = [.spec 7] := by decide

/-! ### Hypotheses of the statements, met by concrete operands and states -/

/-- A section of bouquet 7 that completes `section7`'s record. -/
def section70 : BATSection := { section7 with sectionNumber := 0 }

/-- A section whose length is the greatest a 12-bit field holds, 4095. -/
def sectionLongest : BATSection :=
  { sectionA with
    bouquetDescriptors :=
      List.replicate 15 { tag := 0x10, data := zeroBytes 255 } ++ [{ tag := 0x10, data := zeroBytes 225 }]
    transportStreams := [] }

/-- The block of VD15 and the block of VD17. -/
def blockVD15 : List Byte := [0x47, 0x40, 0x11, 0x10, 0x00, 0x4A] ++ padding 182
def blockVD17 : List Byte := [0x47, 0xE0, 0x11, 0xDF, 0x00, 0x4A] ++ padding 182
/-- A packet whose adaptation field has `n` bytes (VD18 to VD23). -/
def blockAf (n : Byte) : List Byte := [0x47, 0x40, 0x11, 0x30, n] ++ padding 183

theorem step_answers {s : State} (h : answers (step s) (fun _ => true) = true) : ∃ t, step s = .next t := by
  cases e : step s with
  | next t => exact ⟨t, rfl⟩
  | fault r => rw [e] at h; exact absurd h (by simp [answers])
  | refused r => rw [e] at h; exact absurd h (by simp [answers])

/-- A state in the middle of a section, with a record that is not complete. -/
def busy (ops : List HostOp) : State := (after7.withReasm (.collecting 26 (s26.take 3))).withInput ops

theorem busy_inv (ops : List HostOp) : (busy ops).Inv where
  collecting := ⟨by decide, by decide, by decide, by decide⟩
  canonical := List.pairwise_singleton _ _
  records := by
    intro r hr
    have : r = recordCreatedBy section7 := by simpa [busy, after7] using hr
    subst this
    decide +kernel
  capacity := ⟨rfl, fun _ _ => rfl⟩
  overflow := fun h => Bool.noConfusion (show false = true from h)

/-- A state with a complete record. -/
def settled (ops : List HostOp) : State := afterA.withInput ops

theorem settled_inv (ops : List HostOp) : (settled ops).Inv where
  collecting := trivial
  canonical := List.pairwise_singleton _ _
  records := by
    intro r hr
    have : r = recordCreatedBy sectionA := by simpa [settled, afterA] using hr
    subst this
    decide +kernel
  capacity := ⟨rfl, fun _ _ => rfl⟩
  overflow := fun h => Bool.noConfusion (show false = true from h)

theorem test_witness_DecodeOfEncodeIsTheOperation :
    ((Instr.pktOtherPid allBits true 0x1FFF 3 (zeroBytes 184)).wf 0x11 = true ∧
      (Instr.pktOtherPid allBits true 0x1FFF 3 (zeroBytes 184)).selectedBy false = true ∧
      ∀ sec, encode 0x11 (.pktOtherPid allBits true 0x1FFF 3 (zeroBytes 184)) ≠ .decoded (some sec)) ∧
    ((Instr.secAppend [1]).wf 0x11 = true ∧ (Instr.secAppend [1]).selectedBy true = true ∧
      ∀ sec, encode 0x11 (.secAppend [1]) ≠ .decoded (some sec)) ∧
    ((Instr.secIgnore (zeroBytes 184)).wf 0x11 = true ∧ (Instr.secIgnore (zeroBytes 184)).selectedBy false = true ∧
      ∀ sec, encode 0x11 (.secIgnore (zeroBytes 184)) ≠ .decoded (some sec)) :=
  ⟨⟨by decide +kernel, rfl, fun _ h => Encoded.noConfusion h⟩, ⟨by decide, rfl, fun _ h => Encoded.noConfusion h⟩,
    ⟨by decide +kernel, rfl, fun _ h => Encoded.noConfusion h⟩⟩

theorem test_witness_EncodeOfDecodeIsThePayload :
    (1 ≤ ([0x4A] : List Byte).length ∧ ([0x4A] : List Byte).length ≤ 184) ∧
    (1 ≤ (zeroBytes 184).length ∧ (zeroBytes 184).length ≤ 184) := by decide +kernel

theorem test_witness_SectionDecodeInvertsBatsec :
    (sectionA.wf = true ∧ batsecLength sectionA ≤ 4095) ∧
    (sectionLongest.wf = true ∧ batsecLength sectionLongest = 4095) := by decide +kernel

theorem test_witness_StepRunsThePresentedOperation :
    ((present (.pkt blockVD15) State.reset).input = [.pkt blockVD15] ∧
      (decodeOp State.reset.params.targetPid (.pkt blockVD15)).wf State.reset.params.targetPid = true) ∧
    State.reset.input = [] := ⟨⟨rfl, by decide +kernel⟩, rfl⟩

theorem test_witness_BlocksOfAnotherLengthAreDropped :
    ([] : List Byte).length ≠ 188 ∧ (zeroBytes 187).length ≠ 188 ∧ (zeroBytes 189).length ≠ 188 := by decide +kernel

theorem test_witness_BlocksWithoutSyncByteAreDropped :
    (0x48#8 ≠ 0x47#8 ∧ (padding 187).length = 187) ∧ (0x46#8 ≠ 0x47#8 ∧ (padding 187).length = 187) := by
  decide +kernel

theorem test_witness_ForeignPacketsAreDropped :
    (padding 184).length = 184 ∧ (0x0010#13).setWidth 16 ≠ State.reset.params.targetPid ∧
    (0x0012#13).setWidth 16 ≠ State.reset.params.targetPid ∧
    (0x1FFF#13).setWidth 16 ≠ State.reset.params.targetPid := by decide +kernel

theorem test_witness_PacketsWithoutPayloadAreDropped :
    (padding 184).length = 184 ∧ (0x0011#13).setWidth 16 = State.reset.params.targetPid := by decide +kernel

theorem test_witness_PayloadClassesRunTheirPayload :
    (padding 184).length = 184 ∧ (padding 183).length = 183 ∧ (0#8).toNat ≤ 182 ∧ (182#8).toNat ≤ 182 ∧
    183 ≤ (183#8).toNat ∧ 183 ≤ (255#8).toNat := by decide +kernel

/-- One block with the whole payload, one with no adaptation byte after the length, one with a single payload byte. -/
theorem test_witness_PktHandsThePayloadOn :
    (blockVD15.length = 188 ∧ byteAt blockVD15 0 = 0x47#8 ∧
      256 * ((byteAt blockVD15 1).toNat % 32) + (byteAt blockVD15 2).toNat = State.reset.params.targetPid.toNat ∧
      true = decide ((byteAt blockVD15 1).toNat / 64 % 2 = 1) ∧
      (byteAt blockVD15 3).toNat / 16 % 4 = 1) ∧
    ((blockAf 0).length = 188 ∧ byteAt (blockAf 0) 0 = 0x47#8 ∧
      256 * ((byteAt (blockAf 0) 1).toNat % 32) + (byteAt (blockAf 0) 2).toNat = State.reset.params.targetPid.toNat ∧
      true = decide ((byteAt (blockAf 0) 1).toNat / 64 % 2 = 1) ∧
      (byteAt (blockAf 0) 3).toNat / 16 % 4 = 3 ∧ (byteAt (blockAf 0) 4).toNat ≤ 182) ∧
    ((blockAf 182).length = 188 ∧ byteAt (blockAf 182) 0 = 0x47#8 ∧
      256 * ((byteAt (blockAf 182) 1).toNat % 32) + (byteAt (blockAf 182) 2).toNat =
        State.reset.params.targetPid.toNat ∧
      true = decide ((byteAt (blockAf 182) 1).toNat / 64 % 2 = 1) ∧
      (byteAt (blockAf 182) 3).toNat / 16 % 4 = 3 ∧ (byteAt (blockAf 182) 4).toNat ≤ 182) := by decide +kernel

/-- One block for each of the five ways to carry no payload. -/
theorem test_witness_BlocksWithoutPayloadDoNotDisturb :
    (present (.pkt []) (busy [])).input = [.pkt []] ∧ ([] : List Byte).length ≠ 188 ∧
    byteAt (0x48#8 :: padding 187) 0 ≠ 0x47#8 ∧
    256 * ((byteAt ([0x47, 0x00, 0x10, 0x10] ++ padding 184) 1).toNat % 32) +
      (byteAt ([0x47, 0x00, 0x10, 0x10] ++ padding 184) 2).toNat ≠ (busy []).params.targetPid.toNat ∧
    (byteAt ([0x47, 0x40, 0x11, 0x00] ++ padding 184) 3).toNat / 16 % 2 = 0 ∧
    ((byteAt (blockAf 183) 3).toNat / 16 % 4 = 3 ∧ 183 ≤ (byteAt (blockAf 183) 4).toNat) :=
  ⟨rfl, by decide +kernel⟩

/-- The same five ways, each with every earlier test passed. -/
theorem test_witness_FirstFailingTestNamesTheEvent :
    (zeroBytes 189).length ≠ 188 ∧
    ((0x48#8 :: padding 187).length = 188 ∧ byteAt (0x48#8 :: padding 187) 0 ≠ 0x47#8) ∧
    ((blockAf 183).length = 188 ∧ byteAt (blockAf 183) 0 = 0x47#8 ∧
      (0x11#13).toNat = 256 * ((byteAt (blockAf 183) 1).toNat % 32) + (byteAt (blockAf 183) 2).toNat ∧
      (0x11#13).toNat = State.reset.params.targetPid.toNat ∧ (byteAt (blockAf 183) 3).toNat / 16 % 4 = 3 ∧
      183 ≤ (byteAt (blockAf 183) 4).toNat) ∧
    (0x11#13).toNat ≠ { Params.default with targetPid := 0x10 }.targetPid.toNat ∧
    ((byteAt ([0x47, 0x40, 0x11, 0x00] ++ padding 184) 3).toNat / 16 % 4 = 0 ∧
      (byteAt ([0x47, 0x40, 0x11, 0x20] ++ padding 184) 3).toNat / 16 % 4 = 2) := by decide +kernel

theorem test_witness_IgnoredHeaderBitsHaveNoEffect : SameButIgnoredBits blockVD15 blockVD17 := by
  refine ⟨by decide +kernel, fun i h1 h3 => ?_, by decide +kernel, by decide +kernel⟩
  match i with
  | 0 => rfl
  | 1 => exact absurd rfl h1
  | 2 => rfl
  | 3 => exact absurd rfl h3
  | n + 4 => rfl

theorem afterVR4_notFull : notFull afterVR4 := by
  intro expected sb h
  cases h
  decide

/-- The shortest seed that is one byte short, and the three header bytes alone. -/
theorem test_witness_BeginCollectsAShortSeed :
    notFull afterVR4 ∧
    (([] : List Byte).length = (0#8).toNat ∧ byteAt (s26.take 25) 0 = 0x4A#8 ∧ 3 ≤ (s26.take 25).length ∧
      (s26.take 25).length < declaredLength (s26.take 25)) ∧
    ((zeroBytes 180).length = (180#8).toNat ∧ byteAt [0x4A, 0x00, 0x01] 0 = 0x4A#8 ∧
      3 ≤ ([0x4A, 0x00, 0x01] : List Byte).length ∧ 3 < declaredLength [0x4A, 0x00, 0x01]) :=
  ⟨afterVR4_notFull, by decide +kernel⟩

theorem test_witness_BeginDeliversAWholeSeed :
    notFull afterVR4 ∧
    (([0xFF] : List Byte).length = (1#8).toNat ∧ byteAt s26 0 = 0x4A#8 ∧ 3 ≤ s26.length ∧
      declaredLength s26 ≤ s26.length) ∧
    ((zeroBytes 180).length = (180#8).toNat ∧ byteAt [0x4A, 0x00, 0x00] 0 = 0x4A#8 ∧
      3 ≤ ([0x4A, 0x00, 0x00] : List Byte).length ∧ declaredLength [0x4A, 0x00, 0x00] ≤ 3) :=
  ⟨afterVR4_notFull, by decide +kernel⟩

theorem test_witness_StartOfAnotherTableIsSkipped :
    notFull afterVR4 ∧ 1 + (byteAt [0, 0x42] 0).toNat < ([0, 0x42] : List Byte).length ∧
    byteAt [0, 0x42] (1 + (byteAt [0, 0x42] 0).toNat) ≠ 0x4A#8 := ⟨afterVR4_notFull, by decide⟩

/-- A payload of one byte; two section bytes, one short of a header. -/
theorem test_witness_StartTooShortIsSkipped :
    notFull afterVR4 ∧
    (1 ≤ ([0] : List Byte).length ∧ ([0] : List Byte).length ≤ 1 + (byteAt [0] 0).toNat) ∧
    (1 + (byteAt [0, 0x4A, 0xF0] 0).toNat < ([0, 0x4A, 0xF0] : List Byte).length ∧
      byteAt [0, 0x4A, 0xF0] (1 + (byteAt [0, 0x4A, 0xF0] 0).toNat) = 0x4A#8 ∧
      ([0, 0x4A, 0xF0] : List Byte).length < 1 + (byteAt [0, 0x4A, 0xF0] 0).toNat + 3) :=
  ⟨afterVR4_notFull, by decide⟩

theorem test_witness_StartFinalisesAFullBufferFirst :
    fullBuffer.reasm = .collecting 3 [0x4A, 0xF0, 0x00] ∧ 3 ≤ ([0x4A, 0xF0, 0x00] : List Byte).length := by decide

/-- One byte short of the section, and exactly the section. -/
theorem test_witness_AppendExtendsOrDelivers :
    afterVR4.reasm = .collecting 26 (s26.take 3) ∧ (s26.take 3).length + ((s26.drop 3).take 22).length < 26 ∧
    26 ≤ (s26.take 3).length + (s26.drop 3).length := ⟨rfl, by decide⟩

theorem test_witness_ContinuationWhileIdleIsIgnored : State.reset.reasm = .idle := rfl

/-- The unfinished section, and then one payload for each clause, each in both packet forms: no byte at the pointer
target; another table's byte there; two section bytes; a section one byte longer than the payload's share of it; a
section that ends with its payload. The shortest fields (0 bytes) and the longest (182) are among them. -/
theorem test_witness_StartDropsTheUnfinishedSection :
    (afterVR4.reasm = .collecting 26 (s26.take 3) ∧ (s26.take 3).length < 26) ∧
    ((padding 182 ++ [0]).length = 183 ∧ (182#8).toNat ≤ 182 ∧
      ((padding 182 ++ [0]).drop (182#8).toNat).drop (1 + (byteAt ((padding 182 ++ [0]).drop (182#8).toNat) 0).toNat) =
        []) ∧
    ((0 :: 0x42 :: padding 182).length = 184 ∧
      byteAt ((0 :: 0x42 :: padding 182).drop (1 + (byteAt (0 :: 0x42 :: padding 182) 0).toNat)) 0 ≠ 0x4A#8) ∧
    ((padding 180 ++ [0, 0x4A, 0xF0]).length = 183 ∧ (180#8).toNat ≤ 182 ∧
      (((padding 180 ++ [0, 0x4A, 0xF0]).drop (180#8).toNat).drop
        (1 + (byteAt ((padding 180 ++ [0, 0x4A, 0xF0]).drop (180#8).toNat) 0).toNat)).length < 3) ∧
    ((0 :: 0x4A :: 0xF0 :: 0xB5 :: padding 180).length = 184 ∧
      3 ≤ (0x4A :: 0xF0 :: 0xB5 :: padding 180).length ∧ byteAt (0x4A :: 0xF0 :: 0xB5 :: padding 180) 0 = 0x4A#8 ∧
      (0x4A :: 0xF0 :: 0xB5 :: padding 180).length + 1 = declaredLength (0x4A :: 0xF0 :: 0xB5 :: padding 180)) ∧
    ((0 :: 0x4A :: 0xF0 :: 0xB3 :: padding 179).length = 183 ∧ (0#8).toNat ≤ 182 ∧
      3 ≤ (0x4A :: 0xF0 :: 0xB3 :: padding 179).length ∧ byteAt (0x4A :: 0xF0 :: 0xB3 :: padding 179) 0 = 0x4A#8 ∧
      declaredLength (0x4A :: 0xF0 :: 0xB3 :: padding 179) = (0x4A :: 0xF0 :: 0xB3 :: padding 179).length) :=
  ⟨⟨rfl, by decide⟩, by decide +kernel⟩

/-- Seven bytes; a wrong table id; a section longer than its buffer by one byte; one that fills it. -/
theorem test_witness_SectionDecodeTestsAndHeader :
    (s26.take 7).length < 8 ∧ (8 ≤ (0x40 :: s26.drop 1).length ∧ byteAt (0x40 :: s26.drop 1) 0 ≠ 0x4A#8) ∧
    (8 ≤ (s26.take 25).length ∧ byteAt (s26.take 25) 0 = 0x4A#8 ∧
      (s26.take 25).length < declaredLength (s26.take 25)) ∧
    (8 ≤ s26.length ∧ byteAt s26 0 = 0x4A#8 ∧ declaredLength s26 ≤ s26.length) := by decide

/-- VX5: no room for the bouquet loop's header; VX7: none for the second header; VX9: a loop that overruns. -/
theorem test_witness_MissingLoopHeadersLeaveLoopsEmpty :
    let vx5 : List Byte := [0x4A, 0xF0, 0x05, 0, 7, 0xC3, 1, 1]
    let vx7 : List Byte := [0x4A, 0xF0, 0x07, 0, 7, 0xC1, 0, 0, 0xF0, 0]
    let vx9 : List Byte := [0x4A, 0xF0, 0x11, 0, 7, 0xC1, 0, 0, 0xF0, 0xFF, 0x47, 2, 0x41, 0x42, 9, 5, 1, 2, 3, 4]
    (8 ≤ vx5.length ∧ byteAt vx5 0 = 0x4A#8 ∧ declaredLength vx5 ≤ vx5.length ∧ declaredLength vx5 < 10) ∧
    (8 ≤ vx7.length ∧ byteAt vx7 0 = 0x4A#8 ∧ declaredLength vx7 ≤ vx7.length ∧ 10 ≤ declaredLength vx7 ∧
      declaredLength vx7 < 10 + twelveBits (byteAt vx7 8) (byteAt vx7 9) + 2) ∧
    (8 ≤ vx9.length ∧ byteAt vx9 0 = 0x4A#8 ∧ declaredLength vx9 ≤ vx9.length ∧ 10 ≤ declaredLength vx9 ∧
      declaredLength vx9 < 10 + twelveBits (byteAt vx9 8) (byteAt vx9 9) + 2) := by decide

/-- An entry that fills its span; five bytes; an entry one byte longer than its span (VX10, VX11). -/
theorem test_witness_TransportLoopFollowsDeclaredLengths :
    6 + twelveBits (byteAt [0, 0x64, 0, 1, 0xF0, 2, 0x41, 0] 4) (byteAt [0, 0x64, 0, 1, 0xF0, 2, 0x41, 0] 5) ≤
      ([0, 0x64, 0, 1, 0xF0, 2, 0x41, 0] : List Byte).length ∧
    ([0, 0x64, 0, 1, 0xF0] : List Byte).length < 6 ∧
    ([0, 0x65, 0, 1, 0xF0, 3, 0x41, 0] : List Byte).length <
      6 + twelveBits (byteAt [0, 0x65, 0, 1, 0xF0, 3, 0x41, 0] 4) (byteAt [0, 0x65, 0, 1, 0xF0, 3, 0x41, 0] 5) := by
  decide

/-- VX1 and VX16; a section of three bytes in eight. -/
theorem test_witness_SurplusBytesChangeNothing :
    (8 ≤ s26.length ∧ declaredLength s26 ≤ s26.length) ∧
    (8 ≤ ([0x4A, 0xF0, 0x00, 0x01, 0x02, 0xC5, 0x03, 0x00] : List Byte).length ∧
      declaredLength [0x4A, 0xF0, 0x00, 0x01, 0x02, 0xC5, 0x03, 0x00] ≤ 8) := by decide

theorem createFits_unbounded (r : BouquetRecord) : createFits State.reset r :=
  ⟨fun _ h => (nomatch h), fun _ h => (nomatch h), fun _ h => (nomatch h)⟩

theorem replaceFits_unbounded (r : BouquetRecord) : replaceFits after7 r :=
  ⟨fun _ h => (nomatch h), fun _ h => (nomatch h)⟩

/-- A section that is the last of its bouquet, with its number at the bound. -/
theorem test_witness_CreateMakesTheRecord :
    (State.reset.store.lookup section7.bouquetId = none ∧
      section7.sectionNumber.toNat ≤ section7.lastSectionNumber.toNat ∧
      createFits State.reset (recordCreatedBy section7)) ∧
    (State.reset.store.lookup sectionA.bouquetId = none ∧
      sectionA.sectionNumber.toNat ≤ sectionA.lastSectionNumber.toNat ∧
      createFits State.reset (recordCreatedBy sectionA)) :=
  ⟨⟨rfl, by decide, createFits_unbounded _⟩, ⟨rfl, by decide, createFits_unbounded _⟩⟩

theorem test_witness_NewSectionIsMerged :
    after7.store.lookup section7b.bouquetId = some (recordCreatedBy section7) ∧
    section7b.sectionNumber.toNat ≤ (recordCreatedBy section7).lastSectionNumber.toNat ∧
    (recordCreatedBy section7).seenSections.getLsbD section7b.sectionNumber.toNat = false ∧
    replaceFits after7 (recordMergedWith (recordCreatedBy section7) section7b) :=
  ⟨rfl, by decide, by decide +kernel, replaceFits_unbounded _⟩

theorem test_witness_DuplicateSectionChangesNothing :
    after7.store.lookup section7.bouquetId = some (recordCreatedBy section7) ∧
    section7.sectionNumber.toNat ≤ (recordCreatedBy section7).lastSectionNumber.toNat ∧
    (recordCreatedBy section7).seenSections.getLsbD section7.sectionNumber.toNat = true :=
  ⟨rfl, by decide, by decide +kernel⟩

/-- VA4 without a record and VA7 with one, each one above the governing number. -/
theorem test_witness_OutOfRangeSectionIsIgnored :
    (State.reset.store.lookup section7.bouquetId = none ∧ section7.lastSectionNumber.toNat < (2#8).toNat) ∧
    (after7.store.lookup section7b.bouquetId = some (recordCreatedBy section7) ∧
      (recordCreatedBy section7).lastSectionNumber.toNat < (2#8).toNat) := ⟨⟨rfl, by decide⟩, rfl, by decide⟩

/-- A second record where one fits (VA11); a third entry where two fit (as VA13). -/
theorem test_witness_OverflowingMergeIsRefusedWhole :
    (smallStore.store.lookup sectionA.bouquetId = none ∧
      sectionA.sectionNumber.toNat ≤ sectionA.lastSectionNumber.toNat ∧
      ¬ createFits smallStore (recordCreatedBy sectionA)) ∧
    (capTsOne.store.lookup section7b.bouquetId = some (recordCreatedBy section7) ∧
      section7b.sectionNumber.toNat ≤ (recordCreatedBy section7).lastSectionNumber.toNat ∧
      (recordCreatedBy section7).seenSections.getLsbD section7b.sectionNumber.toNat = false ∧
      ¬ replaceFits capTsOne (recordMergedWith (recordCreatedBy section7) section7b)) :=
  ⟨⟨by decide, by decide, fun h => absurd (h.1 1 rfl) (by decide)⟩,
    ⟨rfl, by decide, by decide +kernel, fun h => absurd (h.1 2 rfl) (by decide)⟩⟩

/-- The first of two entries of an id, the second of them, an id that is present and one that is not. -/
theorem test_witness_EntriesMergeByTransportStreamId :
    section7.transportStreams[0]?.isSome = true ∧
    (section7.transportStreams[1]?.isSome = true ∧ ∃ m < 1, ∃ e₀, section7.transportStreams[m]? = some e₀ ∧
      some e₀.transportStreamId = section7.transportStreams[1]?.map fun e => e.transportStreamId) ∧
    (firstEntry 0x64 section7.transportStreams).isSome = true ∧
    firstEntry 0xC8 section7.transportStreams = none ∧
    newIds (section7.transportStreams.map fun t => t.transportStreamId) section7b.transportStreams = [0xC8#16] := by
  refine ⟨by decide, ⟨by decide, 0, by decide, _, rfl, by decide⟩, by decide, by decide, by decide⟩

theorem test_witness_MergeTouchesOnlyItsOwnBouquet :
    (0x1234#16 ≠ section7.bouquetId ∧ (afterA.store.lookup 0x1234#16).isSome = true) := by decide

theorem test_witness_SecondSectionCompletesThePair :
    State.reset.params.capBouquets = none ∧ State.reset.params.capTs = none ∧
    State.reset.params.capDescBytes = none ∧ State.reset.store.lookup section7.bouquetId = none ∧
    section70.bouquetId = section7.bouquetId ∧ section7.lastSectionNumber = 1#8 ∧ section70.lastSectionNumber = 1#8 ∧
    section7.sectionNumber = 1#8 ∧ section70.sectionNumber = 0#8 := by decide

theorem test_witness_ResetStartsANewRun : (present .reset after7).input = [.reset] := rfl

theorem test_witness_ReadReturnsACopy :
    State.reset.reasm = .idle ∧ afterVR4.reasm = .collecting 26 (s26.take 3) := ⟨rfl, rfl⟩

theorem test_witness_EveryStepKeepsTheInvariant :
    (busy [.pkt blockVD15]).Inv ∧ ∃ t, step (busy [.pkt blockVD15]) = .next t :=
  ⟨busy_inv _, step_answers (by decide +kernel)⟩

theorem test_witness_SectionBufferNeverOverflows :
    (busy []).Inv ∧ (busy []).reasm = .collecting 26 (s26.take 3) ∧ (padding 184).length ≤ 184 :=
  ⟨busy_inv _, rfl, by decide +kernel⟩

theorem test_witness_AtMostOneDeliveryPerStep :
    (busy [.pkt blockVD15]).Inv ∧ (busy [.pkt blockVD15]).input ≠ [] ∧
      ∃ t, step (busy [.pkt blockVD15]) = .next t :=
  ⟨busy_inv _, by simp [busy], step_answers (by decide +kernel)⟩

/-- An operation of the run, and the one that ends it. -/
theorem test_witness_StoreOnlyGrowsWithinARun :
    ((busy [.pkt blockVD15]).Inv ∧ (busy [.pkt blockVD15]).input = [.pkt blockVD15] ∧
      (∃ t, step (busy [.pkt blockVD15]) = .next t) ∧ HostOp.pkt blockVD15 ≠ .reset) ∧
    ((busy [.reset]).Inv ∧ (busy [.reset]).input = [.reset] ∧ ∃ t, step (busy [.reset]) = .next t) :=
  ⟨⟨busy_inv _, rfl, step_answers (by decide +kernel), fun h => HostOp.noConfusion h⟩, busy_inv _, rfl, _, rfl⟩

theorem test_witness_CompleteRecordsNeverChange :
    (settled [.pkt blockVD15]).Inv ∧ (settled [.pkt blockVD15]).input = [.pkt blockVD15] ∧
    HostOp.pkt blockVD15 ≠ .reset ∧ (∃ t, step (settled [.pkt blockVD15]) = .next t) ∧
    (settled [.pkt blockVD15]).store.lookup 0x1234 = some (recordCreatedBy sectionA) ∧
    (recordCreatedBy sectionA).complete = true :=
  ⟨settled_inv _, rfl, fun h => HostOp.noConfusion h, step_answers (by decide +kernel), rfl, by decide⟩

/-- VX8: the second header ends the section; VX11: an entry that fits and one that overruns; VX18: a loop cut at the
section's end. -/
theorem test_witness_SecondLoopIsDecodedWithinTheSection :
    let vx8 : List Byte := [0x4A, 0xF0, 0x09, 0, 7, 0xC1, 0, 0, 0xF0, 0, 0xF0, 0]
    let vx11 : List Byte := [0x4A, 0xF0, 0x17, 0, 7, 0xC1, 0, 0, 0xF0, 0, 0xF0, 0x0E, 0, 0x64, 0, 1, 0xF0, 0, 0, 0x65,
      0, 1, 0xF0, 3, 0x41, 0]
    let vx18 := s26.take 10 ++ [0xFF, 0xFF] ++ s26.drop 12
    (8 ≤ vx8.length ∧ byteAt vx8 0 = 0x4A#8 ∧ declaredLength vx8 ≤ vx8.length ∧
      10 + twelveBits (byteAt vx8 8) (byteAt vx8 9) + 2 = declaredLength vx8) ∧
    (8 ≤ vx11.length ∧ byteAt vx11 0 = 0x4A#8 ∧ declaredLength vx11 ≤ vx11.length ∧
      10 + twelveBits (byteAt vx11 8) (byteAt vx11 9) + 2 ≤ declaredLength vx11 ∧
      (entryLoop 14 (vx11.drop 12) 12).stop = 18) ∧
    (8 ≤ vx18.length ∧ byteAt vx18 0 = 0x4A#8 ∧ declaredLength vx18 ≤ vx18.length ∧
      10 + twelveBits (byteAt vx18 8) (byteAt vx18 9) + 2 ≤ declaredLength vx18 ∧
      declaredLength vx18 < 12 + twelveBits (byteAt vx18 10) (byteAt vx18 11)) := by decide +kernel

end Sys2Proof.Tests
end

section
/-! PROOFS. The obligations of spec/00_scope.md: what one step runs (R15), and the widths of the reassembler's registers
(R8). -/

namespace Sys2Proof.Machine

/-! ### What a step runs, by the queue -/

/-- With nothing presented the block holds its state (spec/60_exceptions.md R325). -/
theorem step_of_input_nil {s : State} (h : s.input = []) : step s = .next s := by
  obtain ⟨_, held⟩ | ⟨op, rest, presented, _⟩ := step_cases s
  · exact held
  · simp [h] at presented

/-- With an operation presented the step runs what it decodes to, whatever the bytes of its block
(spec/45_block_operations.md R280, R281). -/
theorem step_of_input_cons {s : State} {op : HostOp} {rest : List HostOp} (h : s.input = op :: rest) :
    step s = exec (decodeOp s.params.targetPid op) (s.withInput rest) := by
  obtain ⟨empty, _⟩ | ⟨op', rest', presented, ran⟩ := step_cases s
  · simp [h] at empty
  · obtain ⟨rfl, rfl⟩ : op = op' ∧ rest = rest' := by simpa [h] using presented
    exact ran

/-- Settles O6, by the two cases of the queue. -/
theorem stepRunsThePresentedOperation : Obligations.StepRunsThePresentedOperation :=
  fun _ => ⟨fun _ _ presented _ => step_of_input_cons presented, step_of_input_nil⟩

/-! ### Widths of the reassembler's registers -/

/-- The value of a 12-bit field (spec/00_scope.md R12). -/
theorem twelveBits_le (b c : Byte) : twelveBits b c ≤ 4095 := by
  have := c.isLt
  unfold twelveBits
  omega

theorem three_le_declaredLength (sec : List Byte) : 3 ≤ declaredLength sec := Nat.le_add_right _ _

/-- The largest section, of which `BUF_CAP` is derived (spec/43_section_reassembler.md R226). -/
theorem declaredLength_le (sec : List Byte) : declaredLength sec ≤ 4098 :=
  Nat.add_le_add_left (twelveBits_le _ _) 3

/-- The buffer's length under the invariant: the header is there, the last byte is not (spec/10_state.md R27). -/
theorem Reassembler.Inv.length_bounds {expected : Nat} {sb : List Byte} (h : (Reassembler.collecting expected sb).Inv) :
    3 ≤ sb.length ∧ sb.length < expected := by
  obtain ⟨header, unfinished, _, _⟩ := h
  exact ⟨header, unfinished⟩

/-- `expected_length` under the invariant is what the section declares (spec/43_section_reassembler.md R208). -/
theorem Reassembler.Inv.expected_eq {expected : Nat} {sb : List Byte} (h : (Reassembler.collecting expected sb).Inv) :
    expected = declaredLength sb := by
  obtain ⟨_, _, declared, _⟩ := h
  exact declared

/-- Settles O47: the register is a declared length, so at most 4098; the buffer is shorter than it, and a payload
adds at most 184 bytes. -/
theorem sectionBufferNeverOverflows : Obligations.SectionBufferNeverOverflows := by
  intro s expected sb payload inv hr hpayload
  have collecting : (Reassembler.collecting expected sb).Inv := hr ▸ inv.collecting
  obtain ⟨header, unfinished⟩ := collecting.length_bounds
  have lower : 3 ≤ expected := collecting.expected_eq ▸ three_le_declaredLength sb
  have upper : expected ≤ 4098 := collecting.expected_eq ▸ declaredLength_le sb
  have appended : (sb ++ payload).length ≤ 4281 := by
    rw [List.length_append]
    omega
  exact ⟨lower, upper, by omega, by omega, appended⟩

end Sys2Proof.Machine
end

section
/-! PROOFS. The obligations of spec/10_state.md: the values reset leaves (R43), the invariant of the block between steps
(R27, R30 to R33) and the growth of the store within a run (R38). -/

namespace Sys2Proof.Machine

/-! ### Seen bits and completeness (spec/10_state.md R31, R32) -/

/-- What is read of the seen bits after one is set. -/
@[simp] theorem getLsbD_markSeen (seen : BitVec 256) (n : Byte) (i : Nat) :
    (markSeen seen n).getLsbD i = (seen.getLsbD i || decide (n.toNat = i)) := by
  have inside : n.toNat < 256 := n.isLt
  rw [markSeen, ← BitVec.twoPow_eq, BitVec.getLsbD_or, BitVec.getLsbD_twoPow]
  simp [inside]

theorem markSeen_ne_zero (seen : BitVec 256) (n : Byte) : markSeen seen n ≠ 0#256 := by
  intro zero
  have bit : (markSeen seen n).getLsbD n.toNat = true := by simp
  simp [zero] at bit

/-- `complete` by the bits (spec/44_bouquet_aggregator.md R252). -/
theorem completeFlag_iff (seen : BitVec 256) (last : Byte) :
    completeFlag seen last = true ↔ ∀ i < last.toNat + 1, seen.getLsbD i = true := by
  simp only [completeFlag, List.all_eq_true, List.mem_range]

/-- Setting a bit up to the last number sets none beyond it. -/
theorem markSeen_within {seen : BitVec 256} {n last : Byte} (hn : n.toNat ≤ last.toNat)
    (within : ∀ i < 256, last.toNat < i → seen.getLsbD i = false) :
    ∀ i < 256, last.toNat < i → (markSeen seen n).getLsbD i = false := by
  intro i hi beyond
  have other : n.toNat ≠ i := by omega
  simp [within i hi beyond, other]

/-! ### Capacities (spec/44_bouquet_aggregator.md R255) -/

/-- Only a finite capacity is exceeded (spec/00_scope.md R7). -/
theorem ne_none_of_exceeds {count : Nat} {cap : Option Nat} (h : exceeds count cap = true) : cap ≠ none := by
  rintro rfl
  exact Bool.noConfusion h

theorem finiteCapacity_of_recordExceeds {p : Params} {r : BouquetRecord} (h : recordExceeds p r = true) :
    finiteCapacity p := by
  obtain entries | bytes := (Bool.or_eq_true _ _).mp h
  · exact .inr (.inl (ne_none_of_exceeds entries))
  · exact .inr (.inr (ne_none_of_exceeds bytes))

theorem finiteCapacity_of_createOverflows {sec : BATSection} {s : State} (h : createOverflows sec s = true) :
    finiteCapacity s.params := by
  obtain bouquets | own := (Bool.or_eq_true _ _).mp h
  · exact .inl (ne_none_of_exceeds bouquets)
  · exact finiteCapacity_of_recordExceeds own

/-- An empty store exceeds no capacity. -/
theorem withinCapacity_nil (p : Params) : withinCapacity p [] := by
  refine ⟨?_, fun _ absent => absurd absent List.not_mem_nil⟩
  cases h : p.capBouquets <;> simp [exceeds]

/-! ### What the decoder hands on is well formed (spec/10_state.md R36) -/

/-- A parsed descriptor's data is as long as one byte says. -/
theorem parseLoop_wf (fuel : Nat) (rest : List Byte) (pos : Nat) :
    (parseLoop fuel rest pos).descriptors.all Descriptor.wf = true := by
  induction fuel, rest, pos using parseLoop.induct with
  | case1 fuel tag len tail pos fits ih =>
    have own : (tail.take len.toNat).length ≤ 255 := by
      rw [List.length_take]
      exact (Nat.min_le_left _ _).trans (Nat.le_of_lt_succ len.isLt)
    simp only [parseLoop, fits, if_true, List.all_cons, Bool.and_eq_true]
    exact ⟨decide_eq_true own, ih⟩
  | case2 fuel tag len tail pos overrun => simp [parseLoop, overrun]
  | case3 fuel rest pos stops => simp [parseLoop]

theorem parseDescriptors_wf (data : List Byte) : (parseDescriptors data).descriptors.all Descriptor.wf = true :=
  parseLoop_wf _ _ _

theorem entryLoop_wf (fuel : Nat) (rest : List Byte) (q : Nat) :
    (entryLoop fuel rest q).entries.all TransportStream.wf = true := by
  induction fuel generalizing rest q with
  | zero => rfl
  | succ fuel ih =>
    obtain ⟨-, stops⟩ | ⟨-, e, emits, -, -, own⟩ := entryLoop_cases fuel rest q
    · rw [stops]
      rfl
    · have entry : e.wf = true := by
        rw [TransportStream.wf, own]
        exact parseDescriptors_wf _
      rw [emits]
      simp [entry, ih]

theorem transportLoop_wf (buffer : List Byte) (bound p : Nat) (within : bound ≤ buffer.length) :
    (transportLoop buffer bound p within).entries.all TransportStream.wf = true := by
  rw [transportLoop_eq within rfl rfl rfl]
  split
  · rfl
  · exact entryLoop_wf _ _ _

theorem sectionLoops_wf (buffer : List Byte) (bound : Nat) (within : bound ≤ buffer.length) :
    (sectionLoops buffer bound within).bouquetDescriptors.all Descriptor.wf = true ∧
      (sectionLoops buffer bound within).transportStreams.all TransportStream.wf = true := by
  rw [sectionLoops_eq within rfl rfl]
  split
  · exact ⟨rfl, rfl⟩
  · exact ⟨parseDescriptors_wf _, transportLoop_wf _ _ _ _⟩

/-- A decoded section is well formed, whatever the buffer. -/
theorem decodeSection_wf {buffer : List Byte} {sec : BATSection}
    (h : (decodeSection buffer).result.toOption = some sec) : sec.wf = true := by
  obtain ⟨-, fails⟩ | ⟨-, ⟨-, fails⟩ | ⟨-, ⟨-, fails⟩ | ⟨within, sec', decoded, -, -, -, -, hds, hts⟩⟩⟩ :=
    decodeSection_cases buffer
  · simp [fails, decodeFails, DecodeResult.toOption] at h
  · simp [fails, decodeFails, DecodeResult.toOption] at h
  · simp [fails, decodeFails, DecodeResult.toOption] at h
  · obtain rfl : sec' = sec := by simpa [decoded, DecodeResult.toOption] using h
    obtain ⟨wfDescriptors, wfEntries⟩ := sectionLoops_wf buffer _ within
    rw [BATSection.wf, hds, hts, wfDescriptors, wfEntries]
    rfl

/-! ### Merging entries (spec/44_bouquet_aggregator.md R250, R251) -/

theorem mergeEntry_wf {present : List TransportStream} {t : TransportStream}
    (hp : present.all TransportStream.wf = true) (ht : t.wf = true) :
    (mergeEntry present t).all TransportStream.wf = true := by
  induction present with
  | nil => simpa [mergeEntry] using ht
  | cons e rest ih =>
    obtain ⟨he, hrest⟩ : e.wf = true ∧ rest.all TransportStream.wf = true := by simpa using hp
    unfold mergeEntry
    split
    · have extended : ({ e with descriptors := e.descriptors ++ t.descriptors } : TransportStream).wf = true := by
        rw [TransportStream.wf, List.all_append]
        exact (Bool.and_eq_true _ _).mpr ⟨he, ht⟩
      rw [List.all_cons, extended, hrest]
      rfl
    · rw [List.all_cons, he, ih hrest]
      rfl

theorem mergeEntries_wf {present new : List TransportStream} (hp : present.all TransportStream.wf = true)
    (hn : new.all TransportStream.wf = true) : (mergeEntries present new).all TransportStream.wf = true := by
  induction new generalizing present with
  | nil => exact hp
  | cons t rest ih =>
    obtain ⟨ht, hrest⟩ : t.wf = true ∧ rest.all TransportStream.wf = true := by simpa using hn
    exact ih (mergeEntry_wf hp ht) hrest

/-- Every entry of a list is found extended at its place in another: what `RecordExtends` asks of a record's entries. -/
def EntriesExtend (l l' : List TransportStream) : Prop :=
  ∀ (i : Nat) (e : TransportStream), l[i]? = some e → ∃ e', l'[i]? = some e' ∧ EntryExtends e e'

theorem EntryExtends.refl (e : TransportStream) : EntryExtends e e := ⟨rfl, rfl, List.prefix_rfl⟩

theorem EntryExtends.trans {a b c : TransportStream} (hab : EntryExtends a b) (hbc : EntryExtends b c) :
    EntryExtends a c := by
  obtain ⟨id₁, network₁, grows₁⟩ := hab
  obtain ⟨id₂, network₂, grows₂⟩ := hbc
  exact ⟨id₂.trans id₁, network₂.trans network₁, grows₁.trans grows₂⟩

theorem EntriesExtend.refl (l : List TransportStream) : EntriesExtend l l :=
  fun _ e present => ⟨e, present, EntryExtends.refl e⟩

theorem EntriesExtend.trans {a b c : List TransportStream} (hab : EntriesExtend a b) (hbc : EntriesExtend b c) :
    EntriesExtend a c := by
  intro i e present
  obtain ⟨e', present', extends'⟩ := hab i e present
  obtain ⟨e'', present'', extends''⟩ := hbc i e' present'
  exact ⟨e'', present'', extends'.trans extends''⟩

theorem EntriesExtend.cons {e e' : TransportStream} {l l' : List TransportStream} (head : EntryExtends e e')
    (tail : EntriesExtend l l') : EntriesExtend (e :: l) (e' :: l') := by
  intro i x present
  cases i with
  | zero =>
    obtain rfl : e = x := by simpa using present
    exact ⟨e', rfl, head⟩
  | succ i => exact tail i x present

/-- Merging one entry extends the entry of its id or adds it at the end. -/
theorem mergeEntry_extends (present : List TransportStream) (t : TransportStream) :
    EntriesExtend present (mergeEntry present t) := by
  induction present with
  | nil =>
    intro i e absent
    simp at absent
  | cons e rest ih =>
    unfold mergeEntry
    split
    · exact .cons ⟨rfl, rfl, List.prefix_append _ _⟩ (.refl rest)
    · exact .cons (.refl e) ih

theorem mergeEntries_extends (present new : List TransportStream) :
    EntriesExtend present (mergeEntries present new) := by
  induction new generalizing present with
  | nil => exact .refl present
  | cons t rest ih => exact (mergeEntry_extends present t).trans (ih _)

/-! ### The records a merge writes (spec/44_bouquet_aggregator.md R244, R247) -/

theorem createdRecord_inv {sec : BATSection} (wf : sec.wf = true)
    (hn : sec.sectionNumber.toNat ≤ sec.lastSectionNumber.toNat) : (createdRecord sec).Inv := by
  obtain ⟨wfDescriptors, wfEntries⟩ := (Bool.and_eq_true _ _).mp wf
  exact ⟨completeFlag_iff _ _, markSeen_within hn (fun _ _ _ => BitVec.getLsbD_zero), markSeen_ne_zero _ _,
    wfDescriptors, wfEntries⟩

theorem mergedRecord_inv {r : BouquetRecord} {sec : BATSection} (inv : r.Inv) (wf : sec.wf = true)
    (hn : sec.sectionNumber.toNat ≤ r.lastSectionNumber.toNat) : (mergedRecord r sec).Inv := by
  obtain ⟨-, within, -, ownDescriptors, ownEntries⟩ := inv
  obtain ⟨wfDescriptors, wfEntries⟩ := (Bool.and_eq_true _ _).mp wf
  have descriptors : (r.bouquetDescriptors ++ sec.bouquetDescriptors).all Descriptor.wf = true := by
    rw [List.all_append, ownDescriptors, wfDescriptors]
    rfl
  exact ⟨completeFlag_iff _ _, markSeen_within hn within, markSeen_ne_zero _ _, descriptors,
    mergeEntries_wf ownEntries wfEntries⟩

theorem RecordExtends.refl (r : BouquetRecord) : RecordExtends r r where
  key := rfl
  version := rfl
  last := rfl
  seen := fun _ => id
  descriptors := List.prefix_rfl
  entries := EntriesExtend.refl _
  complete := id

/-- A merged section only adds to the record (spec/44_bouquet_aggregator.md R253); `complete` stays because every bit it
asks for stays set. -/
theorem recordExtends_mergedRecord {r : BouquetRecord} (sec : BATSection) (inv : r.Inv) :
    RecordExtends r (mergedRecord r sec) where
  key := rfl
  version := rfl
  last := rfl
  seen i set := by
    change (markSeen r.seenSections sec.sectionNumber).getLsbD i = true
    rw [getLsbD_markSeen, set, Bool.true_or]
  descriptors := List.prefix_append _ _
  entries := mergeEntries_extends _ _
  complete whole := by
    obtain ⟨completeIff, -, -, -, -⟩ := inv
    refine (completeFlag_iff _ _).mpr fun i hi => ?_
    rw [getLsbD_markSeen, completeIff.mp whole i hi, Bool.true_or]

/-! ### How one write changes the store -/

theorem StoreExtends.refl (store : Store) : StoreExtends store store :=
  fun _ r found => ⟨r, found, RecordExtends.refl r⟩

/-- A record written at a key not present, or in place of the one it extends, removes and spoils none. -/
theorem storeExtends_put {store : Store} {r' : BouquetRecord}
    (h : ∀ r, store.lookup r'.bouquetId = some r → RecordExtends r r') : StoreExtends store (store.put r') := by
  intro key r found
  by_cases same : key = r'.bouquetId
  · subst same
    exact ⟨r', Store.lookup_put_same store r', h r found⟩
  · exact ⟨r, (Store.lookup_put_other store r' same).trans found, RecordExtends.refl r⟩

/-! ### What a merge writes, with the tests that let it -/

/-- Nothing, or `STORE_OVF` under a finite capacity, or a new record, or the record of the section's key merged with it
(spec/44_bouquet_aggregator.md R262). -/
theorem merge_writes (decoded : Option BATSection) (s : State) :
    (merge decoded s).state = s ∨
    (finiteCapacity s.params ∧ (merge decoded s).state = s.withStoreOvf true) ∨
    (∃ sec, decoded = some sec ∧ s.store.lookup sec.bouquetId = none ∧
      sec.sectionNumber.toNat ≤ sec.lastSectionNumber.toNat ∧ createOverflows sec s = false ∧
      (merge decoded s).state = s.withStore (s.store.put (createdRecord sec))) ∨
    (∃ sec r, decoded = some sec ∧ s.store.lookup sec.bouquetId = some r ∧
      sec.sectionNumber.toNat ≤ r.lastSectionNumber.toNat ∧ mergeOverflows r sec s = false ∧
      (merge decoded s).state = s.withStore (s.store.put (mergedRecord r sec))) := by
  obtain ⟨-, -, absent⟩ | ⟨sec, handed, branch⟩ := merge_cases decoded s
  · exact .inl (by rw [absent]; rfl)
  obtain ⟨-, -, range⟩ | ⟨governs, ⟨fresh, branch⟩ | ⟨r, found, branch⟩⟩ := branch
  · exact .inl (by rw [range]; rfl)
  · have hn : sec.sectionNumber.toNat ≤ sec.lastSectionNumber.toNat := by simpa [governingLast, fresh] using governs
    obtain ⟨-, exceeded, ovf⟩ | ⟨-, fits, create⟩ := branch
    · exact .inr (.inl ⟨finiteCapacity_of_createOverflows exceeded, by rw [ovf]; rfl⟩)
    · exact .inr (.inr (.inl ⟨sec, handed, fresh, hn, fits, by rw [create]; rfl⟩))
  · have hn : sec.sectionNumber.toNat ≤ r.lastSectionNumber.toNat := by simpa [governingLast, found] using governs
    obtain ⟨-, -, dup⟩ | ⟨-, -, exceeded, ovf⟩ | ⟨-, -, fits, new⟩ := branch
    · exact .inl (by rw [dup]; rfl)
    · exact .inr (.inl ⟨finiteCapacity_of_recordExceeds exceeded, by rw [ovf]; rfl⟩)
    · exact .inr (.inr (.inr ⟨sec, r, handed, found, hn, fits, by rw [new]; rfl⟩))

/-! ### The invariant, one write at a time -/

theorem State.Inv.withOutput {s : State} (inv : s.Inv) (o : Output) : (s.withOutput o).Inv :=
  ⟨inv.collecting, inv.canonical, inv.records, inv.capacity, inv.overflow⟩

theorem State.Inv.withInput {s : State} (inv : s.Inv) (ops : List HostOp) : (s.withInput ops).Inv :=
  ⟨inv.collecting, inv.canonical, inv.records, inv.capacity, inv.overflow⟩

theorem State.Inv.withReasm {s : State} (inv : s.Inv) {x : Reassembler} (h : x.Inv) : (s.withReasm x).Inv :=
  ⟨h, inv.canonical, inv.records, inv.capacity, inv.overflow⟩

/-- `STORE_OVF` may be set only under a finite capacity (spec/10_state.md R22). -/
theorem State.Inv.withStoreOvf {s : State} (inv : s.Inv) (finite : finiteCapacity s.params) (flag : Bool) :
    (s.withStoreOvf flag).Inv :=
  ⟨inv.collecting, inv.canonical, inv.records, inv.capacity, fun _ => finite⟩

/-- A good record may be written where there is room for it. -/
theorem State.Inv.withStore_put {s : State} (inv : s.Inv) {r : BouquetRecord} (good : r.Inv)
    (fits : recordExceeds s.params r = false)
    (room : exceeds (s.store.put r).length s.params.capBouquets = false) : (s.withStore (s.store.put r)).Inv := by
  obtain ⟨_, recordsFit⟩ := inv.capacity
  refine ⟨inv.collecting, Store.put_wf r inv.canonical, fun x hx => ?_, ⟨room, fun x hx => ?_⟩, inv.overflow⟩
  · obtain rfl | old := Store.mem_put hx
    · exact good
    · exact inv.records x old
  · obtain rfl | old := Store.mem_put hx
    · exact fits
    · exact recordsFit x old

/-- The block with an empty store and `STORE_OVF` 0 meets the invariant wherever the reassembler does. -/
theorem State.Inv.of_empty {s : State} (collecting : s.reasm.Inv) (empty : s.store = [])
    (clear : s.storeOvf = false) : s.Inv where
  collecting := collecting
  canonical := empty ▸ List.Pairwise.nil
  records := by simp [empty]
  capacity := empty ▸ withinCapacity_nil _
  overflow set := by simp [clear] at set

/-! ### Merges and deliveries -/

/-- The aggregator keeps the invariant when it is handed a well-formed section. -/
theorem merge_keeps_inv {decoded : Option BATSection} {s : State} (inv : s.Inv)
    (wf : ∀ sec, decoded = some sec → sec.wf = true) : (merge decoded s).state.Inv := by
  obtain same | ⟨finite, ovf⟩ | ⟨sec, handed, fresh, hn, fits, create⟩ | ⟨sec, r, handed, found, hn, fits, new⟩ :=
    merge_writes decoded s
  · rw [same]
    exact inv
  · rw [ovf]
    exact inv.withStoreOvf finite true
  · obtain ⟨room, own⟩ : exceeds (s.store.length + 1) s.params.capBouquets = false ∧
        recordExceeds s.params (createdRecord sec) = false := (Bool.or_eq_false_iff).mp fits
    have absent : s.store.lookup (createdRecord sec).bouquetId = none := fresh
    have length : (s.store.put (createdRecord sec)).length = s.store.length + 1 := by
      simp [Store.length_put _ _ inv.canonical, absent]
    rw [create]
    exact inv.withStore_put (createdRecord_inv (wf sec handed) hn) own (length ▸ room)
  · obtain ⟨room, -⟩ := inv.capacity
    have present : s.store.lookup (mergedRecord r sec).bouquetId = some r := (Store.lookup_key found).symm ▸ found
    have length : (s.store.put (mergedRecord r sec)).length = s.store.length := by
      simp [Store.length_put _ _ inv.canonical, present]
    have good : r.Inv := inv.records r (Store.lookup_mem found)
    rw [new]
    exact inv.withStore_put (mergedRecord_inv good (wf sec handed) hn) fits (length.symm ▸ room)

/-- The aggregator only adds to the store and clears no flag (spec/44_bouquet_aggregator.md R253, R264). -/
theorem merge_extends (decoded : Option BATSection) {s : State} (inv : s.Inv) :
    StoreExtends s.store (merge decoded s).state.store ∧
      (s.storeOvf = true → (merge decoded s).state.storeOvf = true) := by
  obtain same | ⟨-, ovf⟩ | ⟨sec, -, fresh, -, -, create⟩ | ⟨sec, r, -, found, -, -, new⟩ := merge_writes decoded s
  · rw [same]
    exact ⟨.refl _, id⟩
  · rw [ovf]
    exact ⟨.refl _, fun _ => rfl⟩
  · rw [create]
    refine ⟨storeExtends_put fun r found => ?_, id⟩
    have absent : s.store.lookup (createdRecord sec).bouquetId = none := fresh
    simp [absent] at found
  · rw [new]
    refine ⟨storeExtends_put fun r' found' => ?_, id⟩
    have present : s.store.lookup (mergedRecord r sec).bouquetId = some r := (Store.lookup_key found).symm ▸ found
    obtain rfl : r = r' := by simpa [present] using found'
    exact recordExtends_mergedRecord sec (inv.records r (Store.lookup_mem found))

theorem deliver_keeps_inv (buffer : List Byte) {s : State} (inv : s.Inv) : (deliver buffer s).state.Inv :=
  merge_keeps_inv inv fun _ => decodeSection_wf

theorem deliver_extends (buffer : List Byte) {s : State} (inv : s.Inv) :
    StoreExtends s.store (deliver buffer s).state.store ∧
      (s.storeOvf = true → (deliver buffer s).state.storeOvf = true) :=
  merge_extends _ inv

/-! ### What the reassembler leaves between steps (spec/10_state.md R27) -/

/-- Under the invariant no full buffer waits, so the check at the head of a start packet does nothing
(spec/43_section_reassembler.md R203). -/
theorem completionCheck_of_inv {s : State} (inv : s.reasm.Inv) :
    completionCheck s = { state := s, delivered := [], events := [] } := by
  cases h : s.reasm with
  | idle => exact completionCheck_idle h
  | collecting expected sb =>
    obtain ⟨-, unfinished⟩ := (h ▸ inv : (Reassembler.collecting expected sb).Inv).length_bounds
    exact completionCheck_short h unfinished

/-- The check on a buffer just written: it stays while short, else it is delivered and the block goes Idle
(spec/43_section_reassembler.md R212, R213). -/
theorem completionCheck_withReasm_state (expected : Nat) (sb : List Byte) (s : State) :
    (sb.length < expected ∧ (completionCheck (s.withReasm (.collecting expected sb))).state =
      s.withReasm (.collecting expected sb)) ∨
    (expected ≤ sb.length ∧ (completionCheck (s.withReasm (.collecting expected sb))).state =
      (deliver sb s).state.withReasm .idle) := by
  obtain ⟨idle, -⟩ | ⟨expected', sb', written, branch⟩ :=
    completionCheck_cases (s.withReasm (.collecting expected sb))
  · cases idle
  · cases written
    obtain ⟨short, check⟩ | ⟨full, check⟩ := branch
    · exact .inl ⟨short, by rw [check]⟩
    · refine .inr ⟨full, ?_⟩
      rw [check, deliver_withReasm]
      rfl

/-- A seed begins with the BAT table id (spec/43_section_reassembler.md R206). -/
theorem startSeed_tableId {payload : List Byte} {seed : Seed} (h : startSeed payload = .ok seed) :
    byteAt seed.bytes 0 = batTableId := by
  obtain ⟨-, error⟩ | ⟨-, ⟨-, error⟩ | ⟨tableId, ⟨-, error⟩ | ⟨-, header, ok⟩⟩⟩ := startSeed_cases payload
  · simp [error] at h
  · simp [error] at h
  · simp [error] at h
  · obtain rfl : ⟨payload.drop _, header⟩ = seed := by simpa [ok] using h
    simpa [byteAt_drop] using tableId

/-- The declared length stands in the first three bytes, which an append leaves alone
(spec/43_section_reassembler.md R208). -/
theorem declaredLength_append {sb : List Byte} (header : 3 ≤ sb.length) (payload : List Byte) :
    declaredLength (sb ++ payload) = declaredLength sb := by
  rw [declaredLength, declaredLength, byteAt_append_left sb payload (by omega),
    byteAt_append_left sb payload (by omega)]

/-- A buffer that is still short after an append is a section being collected. -/
theorem Reassembler.Inv.append {expected : Nat} {sb payload : List Byte}
    (inv : (Reassembler.collecting expected sb).Inv) (short : (sb ++ payload).length < expected) :
    (Reassembler.collecting expected (sb ++ payload)).Inv := by
  obtain ⟨header, -, declared, tableId⟩ := inv
  refine ⟨?_, short, declared.trans (declaredLength_append header payload).symm, ?_⟩
  · rw [List.length_append]
    omega
  · rw [byteAt_append_left sb payload (by omega), tableId]

/-- What an invocation leaves under the invariant: the block with another good reassembler and no more, or one delivery
and Idle (spec/43_section_reassembler.md R227). -/
theorem reassemble_state (payload : List Byte) (isStart : Bool) {s : State} (inv : s.reasm.Inv) :
    (∃ x : Reassembler, x.Inv ∧ (reassemble payload isStart s).state = s.withReasm x) ∨
    ∃ buffer, (reassemble payload isStart s).state = (deliver buffer s).state.withReasm .idle := by
  obtain ⟨-, ev, -, skip⟩ | ⟨-, seed, seeded, begins⟩ | ⟨-, idle, ignore⟩ | ⟨-, expected, sb, collecting, append⟩ :=
    reassemble_cases payload isStart s
  · refine .inl ⟨.idle, trivial, ?_⟩
    rw [skip, skipStart, completionCheck_of_inv inv]
    rfl
  · have checked : (reassemble payload isStart s).state =
        (completionCheck (s.withReasm (.collecting (declaredLength seed.bytes) seed.bytes))).state := by
      rw [begins, beginSection, completionCheck_of_inv inv, ← expectedLengthOf_eq seed.bytes seed.header]
      rfl
    rw [checked]
    obtain ⟨short, stays⟩ | ⟨-, delivered⟩ :=
      completionCheck_withReasm_state (declaredLength seed.bytes) seed.bytes s
    · exact .inl ⟨.collecting (declaredLength seed.bytes) seed.bytes,
        ⟨seed.header, short, rfl, startSeed_tableId seeded⟩, stays⟩
    · exact .inr ⟨_, delivered⟩
  · refine .inl ⟨s.reasm, inv, ?_⟩
    rw [ignore]
    rfl
  · rw [append, appendPayload]
    obtain ⟨short, stays⟩ | ⟨-, delivered⟩ := completionCheck_withReasm_state expected (sb ++ payload) s
    · exact .inl ⟨_, (collecting ▸ inv : (Reassembler.collecting expected sb).Inv).append short, stays⟩
    · exact .inr ⟨_, delivered⟩

theorem reassemble_keeps_inv (payload : List Byte) (isStart : Bool) {s : State} (inv : s.Inv) :
    (reassemble payload isStart s).state.Inv := by
  obtain ⟨x, good, state⟩ | ⟨buffer, state⟩ := reassemble_state payload isStart inv.collecting
  · rw [state]
    exact inv.withReasm good
  · rw [state]
    exact (deliver_keeps_inv buffer inv).withReasm (x := .idle) trivial

theorem reassemble_extends (payload : List Byte) (isStart : Bool) {s : State} (inv : s.Inv) :
    StoreExtends s.store (reassemble payload isStart s).state.store ∧
      (s.storeOvf = true → (reassemble payload isStart s).state.storeOvf = true) := by
  obtain ⟨x, -, state⟩ | ⟨buffer, state⟩ := reassemble_state payload isStart inv.collecting
  · rw [state]
    exact ⟨.refl _, id⟩
  · rw [state]
    exact deliver_extends buffer inv

/-! ### What a step does to the state -/

/-- A packet with an adaptation field is dropped or hands a payload on (spec/40_packet_demux.md R140, R141). -/
theorem passAfterField_drops_or_passes (afLen : Byte) (rest : List Byte) (isStart : Bool) (s : State) :
    (∃ ev, passAfterField afLen rest isStart s = dropBlock ev s) ∨
    ∃ payload isStart', passAfterField afLen rest isStart s = passPayload payload isStart' s := by
  obtain ⟨-, drops⟩ | ⟨-, passes⟩ := passAfterField_cases afLen rest isStart s
  · exact .inl ⟨_, drops⟩
  · exact .inr ⟨_, _, passes⟩

/-- The class of a 188-byte block drops it or hands a payload on (spec/40_packet_demux.md R133 to R141). -/
theorem exec_decodeHeader_cases (targetPid : Half) (b0 b1 b2 b3 b4 : Byte) (rest : List Byte) (s : State) :
    (∃ ev, exec (decodeHeader targetPid b0 b1 b2 b3 b4 rest) s = dropBlock ev s) ∨
    ∃ payload isStart, exec (decodeHeader targetPid b0 b1 b2 b3 b4 rest) s = passPayload payload isStart s := by
  simp only [decodeHeader]
  split_ifs
  · exact .inr ⟨_, _, rfl⟩
  · exact .inr ⟨_, _, rfl⟩
  · exact passAfterField_drops_or_passes b4 rest true s
  · exact passAfterField_drops_or_passes b4 rest false s
  · exact .inl ⟨_, rfl⟩
  · exact .inl ⟨_, rfl⟩
  · exact .inl ⟨_, rfl⟩
  · exact .inl ⟨_, rfl⟩

/-- The class of any presented block drops it or hands a payload on. -/
theorem exec_decodeBlock_cases (targetPid : Half) (block : List Byte) (s : State) :
    (∃ ev, exec (decodeBlock targetPid block) s = dropBlock ev s) ∨
    ∃ payload isStart, exec (decodeBlock targetPid block) s = passPayload payload isStart s := by
  unfold decodeBlock
  split
  · exact .inl ⟨_, rfl⟩
  · split
    · exact exec_decodeHeader_cases targetPid _ _ _ _ _ _ s
    · exact .inl ⟨_, rfl⟩

/-- What a step on a presented operation leaves, but for what it puts out: within the run the state as it was or the
reassembler's state on a payload, and a new run after RESET (spec/45_block_operations.md R280, R290, R292). -/
theorem step_next_cases {s t : State} {op : HostOp} {rest : List HostOp} (presented : s.input = op :: rest)
    (stepped : step s = .next t) :
    (op ≠ .reset ∧ ∃ o, t = (s.withInput rest).withOutput o) ∨
    (op ≠ .reset ∧ ∃ payload isStart o, t = (reassemble payload isStart (s.withInput rest)).state.withOutput o) ∨
    (op = .reset ∧ t = (((setIdle (s.withInput rest)).withStore []).withStoreOvf false).withOutput .nothing) := by
  rw [step_of_input_cons presented] at stepped
  cases op with
  | pkt block =>
    rw [decodeOp_pkt] at stepped
    obtain ⟨ev, drops⟩ | ⟨payload, isStart, passes⟩ :=
      exec_decodeBlock_cases s.params.targetPid block (s.withInput rest)
    · rw [drops, dropBlock, finish_eq_next] at stepped
      exact .inl ⟨HostOp.noConfusion, _, stepped.symm⟩
    · rw [passes, passPayload, finish_eq_next] at stepped
      exact .inr (.inl ⟨HostOp.noConfusion, _, _, _, stepped.symm⟩)
  | reset => exact .inr (.inr ⟨rfl, ((finish_eq_next _ _ _).mp stepped).symm⟩)
  | read key => exact .inl ⟨HostOp.noConfusion, _, ((finish_eq_next _ _ _).mp stepped).symm⟩

/-! ### The obligations -/

/-- Settles O45, by what a step can leave: an unread field written, an invocation of the reassembler, a new run. -/
theorem everyStepKeepsTheInvariant : Obligations.EveryStepKeepsTheInvariant := by
  intro s t inv stepped
  cases presented : s.input with
  | nil =>
    obtain rfl : s = t := by simpa [step_of_input_nil presented] using stepped
    exact inv
  | cons op rest =>
    obtain ⟨-, o, rfl⟩ | ⟨-, payload, isStart, o, rfl⟩ | ⟨-, rfl⟩ := step_next_cases presented stepped
    · exact (inv.withInput rest).withOutput o
    · exact (reassemble_keeps_inv payload isStart (inv.withInput rest)).withOutput o
    · exact .of_empty trivial rfl rfl

/-- Settles O49: within the run only a delivery writes the store, and a merge only extends it. -/
theorem storeOnlyGrowsWithinARun : Obligations.StoreOnlyGrowsWithinARun := by
  intro s t op rest inv presented stepped
  obtain ⟨run, o, rfl⟩ | ⟨run, payload, isStart, o, rfl⟩ | ⟨reset, rfl⟩ := step_next_cases presented stepped
  · exact ⟨fun _ => ⟨.refl _, id⟩, fun reset => absurd reset run⟩
  · exact ⟨fun _ => reassemble_extends payload isStart (inv.withInput rest), fun reset => absurd reset run⟩
  · exact ⟨fun run => absurd reset run, fun _ => ⟨rfl, rfl⟩⟩

/-- Settles O43, field by field. -/
theorem resetValues : Obligations.ResetValues :=
  ⟨rfl, Store.lookup_nil, rfl, rfl, rfl, rfl, rfl, rfl⟩

/-- Settles O46: Idle, no record, no flag. -/
theorem resetMeetsTheInvariant : Obligations.ResetMeetsTheInvariant :=
  fun _ _ => .of_empty trivial rfl rfl

end Sys2Proof.Machine
end

section
/-! PROOFS. The obligations of spec/30_encoding.md: the operation map read by the fields of R81, the two round trips
through it (R97 to R99), and the bits no rule reads (R82). -/

namespace Sys2Proof.Machine

/-! ### The header word, byte by byte (spec/30_encoding.md R98) -/

theorem getLsbD_headerWord (b0 b1 b2 b3 : Byte) (i : Nat) :
    (headerWord b0 b1 b2 b3).getLsbD i =
      if i < 8 then b3.getLsbD i else if i < 16 then b2.getLsbD (i - 8)
      else if i < 24 then b1.getLsbD (i - 16) else b0.getLsbD (i - 24) := by
  simp only [headerWord, BitVec.getLsbD_append]
  grind

theorem headerWord_and (a0 a1 a2 a3 b0 b1 b2 b3 : Byte) :
    headerWord a0 a1 a2 a3 &&& headerWord b0 b1 b2 b3 =
      headerWord (a0 &&& b0) (a1 &&& b1) (a2 &&& b2) (a3 &&& b3) := by
  apply BitVec.eq_of_getLsbD_eq
  intro i _
  simp only [BitVec.getLsbD_and, getLsbD_headerWord]
  split_ifs <;> rfl

theorem headerWord_or (a0 a1 a2 a3 b0 b1 b2 b3 : Byte) :
    headerWord a0 a1 a2 a3 ||| headerWord b0 b1 b2 b3 =
      headerWord (a0 ||| b0) (a1 ||| b1) (a2 ||| b2) (a3 ||| b3) := by
  apply BitVec.eq_of_getLsbD_eq
  intro i _
  simp only [BitVec.getLsbD_or, getLsbD_headerWord]
  split_ifs <;> rfl

/-- Two sequences that end in a byte are equal where both parts are. -/
theorem append_byte_eq_iff {n : Nat} (x y : BitVec n) (b c : Byte) : x ++ b = y ++ c ↔ x = y ∧ b = c := by
  refine ⟨fun h => ⟨?_, ?_⟩, fun ⟨hx, hb⟩ => hx ▸ hb ▸ rfl⟩
  · rw [← BitVec.extractLsb'_append_eq_left (a := x) (b := b), h, BitVec.extractLsb'_append_eq_left]
  · rw [← BitVec.extractLsb'_append_eq_right (a := x) (b := b), h, BitVec.extractLsb'_append_eq_right]

theorem headerWord_eq_iff (a0 a1 a2 a3 b0 b1 b2 b3 : Byte) :
    headerWord a0 a1 a2 a3 = headerWord b0 b1 b2 b3 ↔ a0 = b0 ∧ a1 = b1 ∧ a2 = b2 ∧ a3 = b3 := by
  simp only [headerWord, append_byte_eq_iff, and_assoc]

/-! ### The fields of a header (spec/30_encoding.md R81) -/

@[simp] theorem setWidth_pidField (b1 b2 : Byte) : (pidField b1 b2).setWidth 8 = b2 :=
  BitVec.setWidth_append_eq_right

@[simp] theorem extractLsb'_pidField (b1 b2 : Byte) : (pidField b1 b2).extractLsb' 8 5 = b1.extractLsb' 0 5 :=
  BitVec.extractLsb'_append_eq_left

@[simp] theorem pusiOf_headerByte1 (bits : IgnoredBits) (pusi : Bool) (pid : BitVec 13) :
    pusiOf (headerByte1 bits pusi pid) = pusi := by
  obtain ⟨tei, prio, -, -⟩ := bits
  simp only [headerByte1]
  generalize pid.extractLsb' 8 5 = high
  revert tei prio pusi high
  decide +kernel

@[simp] theorem pidField_headerByte1 (bits : IgnoredBits) (pusi : Bool) (pid : BitVec 13) :
    pidField (headerByte1 bits pusi pid) (pid.setWidth 8) = pid := by
  have high : (headerByte1 bits pusi pid).extractLsb' 0 5 = pid.extractLsb' 8 5 :=
    BitVec.extractLsb'_append_eq_right
  rw [pidField, high]
  apply BitVec.eq_of_getLsbD_eq
  intro i hi
  simp only [BitVec.getLsbD_append, BitVec.getLsbD_setWidth, BitVec.getLsbD_extractLsb']
  grind

@[simp] theorem afcField_headerByte3 (bits : IgnoredBits) (afc : BitVec 2) :
    afcField (headerByte3 bits afc) = afc := by
  obtain ⟨-, -, sc, cc⟩ := bits
  simp only [headerByte3]
  revert sc cc afc
  decide +kernel

/-- The bits no rule reads are carried through an encoding (R82). -/
@[simp] theorem ignoredBitsOf_headerBytes (bits : IgnoredBits) (pusi : Bool) (pid : BitVec 13) (afc : BitVec 2) :
    ignoredBitsOf (headerByte1 bits pusi pid) (headerByte3 bits afc) = bits := by
  obtain ⟨tei, prio, sc, cc⟩ := bits
  have byte1 : (headerByte1 ⟨tei, prio, sc, cc⟩ pusi pid).getLsbD 7 = tei ∧
      (headerByte1 ⟨tei, prio, sc, cc⟩ pusi pid).getLsbD 5 = prio := by
    simp only [headerByte1]
    generalize pid.extractLsb' 8 5 = high
    revert tei prio pusi high
    decide +kernel
  have byte3 : (headerByte3 ⟨tei, prio, sc, cc⟩ afc).extractLsb' 6 2 = sc ∧
      (headerByte3 ⟨tei, prio, sc, cc⟩ afc).extractLsb' 0 4 = cc := by
    clear byte1
    simp only [headerByte3]
    revert sc cc afc
    decide +kernel
  obtain ⟨htei, hprio⟩ := byte1
  obtain ⟨hsc, hcc⟩ := byte3
  rw [ignoredBitsOf, htei, hprio, hsc, hcc]

/-- Byte 1 is written from its own fields. -/
theorem headerByte1_fields (b1 b2 b3 : Byte) :
    headerByte1 (ignoredBitsOf b1 b3) (pusiOf b1) (pidField b1 b2) = b1 := by
  rw [headerByte1, extractLsb'_pidField]
  revert b1
  simp only [ignoredBitsOf, pusiOf]
  decide +kernel

/-- Byte 3 is written from its own fields. -/
theorem headerByte3_fields (b1 b3 : Byte) : headerByte3 (ignoredBitsOf b1 b3) (afcField b3) = b3 := by
  simp only [headerByte3, ignoredBitsOf, afcField]
  revert b3
  decide +kernel

/-- A packet is written from the fields of its header: no bit is dropped. -/
theorem encodePacket_fields (b1 b2 b3 : Byte) (rest : List Byte) :
    encodePacket (ignoredBitsOf b1 b3) (pusiOf b1) (pidField b1 b2) (afcField b3) rest =
      syncByte :: b1 :: b2 :: b3 :: rest := by
  rw [encodePacket, headerByte1_fields, setWidth_pidField, headerByte3_fields]

theorem afc_cases : ∀ afc : BitVec 2, afc = 0#2 ∨ afc = 1#2 ∨ afc = 2#2 ∨ afc = 3#2 := by decide

/-! ### The rows of the operation map by fields (spec/30_encoding.md R98) -/

/-- The ignored bits of a row's match: all clear. -/
def clearBits : IgnoredBits := { tei := false, prio := false, sc := 0#2, cc := 0#4 }

/-- The match of rows 2 to 7 with the PID bits clear. -/
def rowBase (pusi : Bool) (afc : BitVec 2) : BitVec 32 :=
  headerWord syncByte (headerByte1 clearBits pusi 0#13) 0#8 (headerByte3 clearBits afc)

/-- Byte 1 under the mask of rows 2 to 5. -/
theorem and_5F (b1 b2 : Byte) : b1 &&& 0x5F#8 = headerByte1 clearBits (pusiOf b1) (pidField b1 b2) := by
  rw [headerByte1, extractLsb'_pidField]
  revert b1
  decide +kernel

/-- Byte 1 under the mask of rows 6 and 7, which leaves PUSI out. -/
theorem and_1F (b1 b2 : Byte) : b1 &&& 0x1F#8 = headerByte1 clearBits false (pidField b1 b2) := by
  rw [headerByte1, extractLsb'_pidField]
  revert b1
  decide +kernel

/-- Byte 3 under the mask of rows 2 to 7. -/
theorem and_30 : ∀ b3 : Byte, b3 &&& 0x30#8 = headerByte3 clearBits (afcField b3) := by decide +kernel

theorem headerByte1_clear_inj {pusi pusi' : Bool} {pid pid' : BitVec 13} :
    headerByte1 clearBits pusi pid = headerByte1 clearBits pusi' pid' ∧ pid.setWidth 8 = pid'.setWidth 8 ↔
      pusi = pusi' ∧ pid = pid' := by
  refine ⟨fun ⟨high, low⟩ => ⟨?_, ?_⟩, fun ⟨hpusi, hpid⟩ => hpusi ▸ hpid ▸ ⟨rfl, rfl⟩⟩
  · rw [← pusiOf_headerByte1 clearBits pusi pid, high, pusiOf_headerByte1]
  · rw [← pidField_headerByte1 clearBits pusi pid, high, low, pidField_headerByte1]

theorem headerByte3_clear_inj {afc afc' : BitVec 2} :
    headerByte3 clearBits afc = headerByte3 clearBits afc' ↔ afc = afc' := by
  refine ⟨fun h => ?_, fun h => h ▸ rfl⟩
  rw [← afcField_headerByte3 clearBits afc, h, afcField_headerByte3]

/-- A PID in bits 20:8 of the header word. -/
theorem pid_shifted (pid : BitVec 13) :
    (pid.setWidth 16).setWidth 32 <<< 8 = headerWord 0#8 ((pid.extractLsb' 8 5).setWidth 8) (pid.setWidth 8) 0#8 := by
  apply BitVec.eq_of_getLsbD_eq
  intro i hi
  simp only [BitVec.getLsbD_shiftLeft, BitVec.getLsbD_setWidth, BitVec.getLsbD_extractLsb', BitVec.getLsbD_zero,
    getLsbD_headerWord]
  grind

/-- A row's match for a PID is the header of that PID with the row's PUSI and AFC. -/
theorem rowMatch_rowBase (pusi : Bool) (afc : BitVec 2) (pid : BitVec 13) :
    rowMatch (rowBase pusi afc) (pid.setWidth 16) =
      headerWord syncByte (headerByte1 clearBits pusi pid) (pid.setWidth 8) (headerByte3 clearBits afc) := by
  have byte1 : headerByte1 clearBits pusi 0#13 ||| (pid.extractLsb' 8 5).setWidth 8 =
      headerByte1 clearBits pusi pid := by
    simp only [headerByte1]
    generalize pid.extractLsb' 8 5 = high
    revert pusi high
    decide +kernel
  rw [rowMatch, pid_shifted, rowBase, headerWord_or, byte1]
  simp

/-- `TARGET_PID` is a PID a header can have, or no row matches (spec/40_packet_demux.md R125). -/
theorem pidReachable_iff (targetPid : Half) :
    pidReachable targetPid = true ↔ ∃ pid : BitVec 13, pid.setWidth 16 = targetPid := by
  rw [pidReachable, decide_eq_true_eq]
  constructor
  · intro small
    refine ⟨targetPid.setWidth 13, BitVec.eq_of_toNat_eq ?_⟩
    simp only [BitVec.toNat_setWidth]
    omega
  · rintro ⟨pid, rfl⟩
    have := pid.isLt
    simp only [BitVec.toNat_setWidth]
    omega

/-- A 13-bit PID is what remains of it after widening. -/
@[simp] theorem pid_widened (pid : BitVec 13) : (pid.setWidth 16).setWidth 13 = pid :=
  BitVec.setWidth_setWidth_of_le pid (by decide)

/-- A row of rows 2 to 7 by fields. `m1` is byte 1 of the row's mask, `read` the PUSI it leaves in byte 1. -/
theorem rowHits_iff (targetPid : Half) {m1 b1 b2 : Byte} {read : Bool} (pusi : Bool) (afc : BitVec 2) (b0 b3 : Byte)
    (masked1 : b1 &&& m1 = headerByte1 clearBits read (pidField b1 b2)) :
    rowHits targetPid (headerWord 0xFF#8 m1 0xFF#8 0x30#8) (rowBase pusi afc) (headerWord b0 b1 b2 b3) = true ↔
      b0 = syncByte ∧ (pidField b1 b2).setWidth 16 = targetPid ∧ read = pusi ∧ afcField b3 = afc := by
  have whole (b : Byte) : b &&& 0xFF#8 = b := BitVec.and_allOnes
  have masked : headerWord b0 b1 b2 b3 &&& headerWord 0xFF#8 m1 0xFF#8 0x30#8 =
      headerWord b0 (headerByte1 clearBits read (pidField b1 b2)) ((pidField b1 b2).setWidth 8)
        (headerByte3 clearBits (afcField b3)) := by
    rw [headerWord_and, masked1, and_30, setWidth_pidField, whole, whole]
  rw [rowHits, Bool.and_eq_true, pidReachable_iff, beq_iff_eq, masked]
  constructor
  · rintro ⟨⟨pid, rfl⟩, hits⟩
    rw [rowMatch_rowBase, headerWord_eq_iff] at hits
    obtain ⟨sync, byte1, byte2, byte3⟩ := hits
    obtain ⟨hpusi, hpid⟩ := headerByte1_clear_inj.mp ⟨byte1, byte2⟩
    exact ⟨sync, hpid ▸ rfl, hpusi, headerByte3_clear_inj.mp byte3⟩
  · rintro ⟨rfl, rfl, rfl, rfl⟩
    exact ⟨⟨_, rfl⟩, (rowMatch_rowBase _ _ _).symm⟩

/-- Rows 2 to 5 match by sync byte, PID, PUSI and AFC. -/
theorem rowHits_5F_iff {targetPid : Half} {base : BitVec 32} {pusi : Bool} {afc : BitVec 2} {b0 b1 b2 b3 : Byte}
    (hbase : base = rowBase pusi afc) :
    rowHits targetPid 0xFF5FFF30#32 base (headerWord b0 b1 b2 b3) = true ↔
      b0 = syncByte ∧ (pidField b1 b2).setWidth 16 = targetPid ∧ pusiOf b1 = pusi ∧ afcField b3 = afc :=
  hbase ▸ rowHits_iff targetPid pusi afc b0 b3 (and_5F b1 b2)

/-- Rows 6 and 7 match by sync byte, PID and AFC. -/
theorem rowHits_1F_iff {targetPid : Half} {base : BitVec 32} {afc : BitVec 2} {b0 b1 b2 b3 : Byte}
    (hbase : base = rowBase false afc) :
    rowHits targetPid 0xFF1FFF30#32 base (headerWord b0 b1 b2 b3) = true ↔
      b0 = syncByte ∧ (pidField b1 b2).setWidth 16 = targetPid ∧ afcField b3 = afc := by
  have row := rowHits_iff targetPid false afc b0 b3 (and_1F b1 b2)
  simp only [true_and] at row
  exact hbase ▸ row

/-- Row 8 matches by the sync byte. -/
theorem syncRow_iff (b0 b1 b2 b3 : Byte) :
    (headerWord b0 b1 b2 b3 &&& 0xFF000000#32 == 0x47000000#32) = true ↔ b0 = syncByte := by
  have mask : 0xFF000000#32 = headerWord 0xFF#8 0#8 0#8 0#8 := by decide
  have row : 0x47000000#32 = headerWord syncByte 0#8 0#8 0#8 := by decide
  have whole : b0 &&& 0xFF#8 = b0 := BitVec.and_allOnes
  rw [beq_iff_eq, mask, row, headerWord_and, headerWord_eq_iff, whole]
  simp

/-! ### The class of a block, in the order of the demultiplexer's tests -/

/-- The class of a packet on `TARGET_PID` (rows 2 to 7 of R98), by AFC and PUSI. -/
def targetClass (bits : IgnoredBits) (pusi : Bool) (afc : BitVec 2) (b4 : Byte) (rest : List Byte) : Instr :=
  if afc = 0#2 then .pktNoPayloadAfc00 bits pusi (b4 :: rest)
  else if afc = 1#2 then if pusi then .pktStartAfc01 bits (b4 :: rest) else .pktContAfc01 bits (b4 :: rest)
  else if afc = 2#2 then .pktNoPayloadAfc10 bits pusi (b4 :: rest)
  else if pusi then .pktStartAfc11 bits b4 rest else .pktContAfc11 bits b4 rest

/-- The rows of R98 as ordered tests: the sync byte, the PID, then AFC and PUSI. -/
theorem decodeHeader_eq (targetPid : Half) (b0 b1 b2 b3 b4 : Byte) (rest : List Byte) :
    decodeHeader targetPid b0 b1 b2 b3 b4 rest =
      if b0 ≠ syncByte then .pktBadSync b0 (b1 :: b2 :: b3 :: b4 :: rest)
      else if (pidField b1 b2).setWidth 16 ≠ targetPid then
        .pktOtherPid (ignoredBitsOf b1 b3) (pusiOf b1) (pidField b1 b2) (afcField b3) (b4 :: rest)
      else targetClass (ignoredBitsOf b1 b3) (pusiOf b1) (afcField b3) b4 rest := by
  have startAfc01 : 0x47400010#32 = rowBase true 1#2 := by decide
  have contAfc01 : 0x47000010#32 = rowBase false 1#2 := by decide
  have startAfc11 : 0x47400030#32 = rowBase true 3#2 := by decide
  have contAfc11 : 0x47000030#32 = rowBase false 3#2 := by decide
  have afc00 : 0x47000000#32 = rowBase false 0#2 := by decide
  have afc10 : 0x47000020#32 = rowBase false 2#2 := by decide
  simp only [decodeHeader, rowHits_5F_iff startAfc01, rowHits_5F_iff contAfc01, rowHits_5F_iff startAfc11,
    rowHits_5F_iff contAfc11, rowHits_1F_iff afc00, rowHits_1F_iff afc10, syncRow_iff]
  by_cases sync : b0 = syncByte
  · by_cases own : (pidField b1 b2).setWidth 16 = targetPid
    · obtain afc | afc | afc | afc := afc_cases (afcField b3) <;> cases pusi : pusiOf b1 <;>
        simp [sync, own, afc, targetClass]
    · simp [sync, own]
  · simp [sync]

/-- What a class on `TARGET_PID` does (spec/40_packet_demux.md R136 to R141). -/
theorem exec_targetClass (bits : IgnoredBits) (pusi : Bool) (afc : BitVec 2) (b4 : Byte) (rest : List Byte)
    (s : State) :
    exec (targetClass bits pusi afc b4 rest) s =
      if afc = 0#2 ∨ afc = 2#2 then dropBlock (.noPayload afc) s
      else if afc = 1#2 then passPayload (b4 :: rest) pusi s
      else passAfterField b4 rest pusi s := by
  obtain rfl | rfl | rfl | rfl := afc_cases afc
  · rfl
  · cases pusi <;> rfl
  · rfl
  · cases pusi <;> rfl

theorem encode_targetClass (targetPid : Half) (bits : IgnoredBits) (pusi : Bool) (afc : BitVec 2) (b4 : Byte)
    (rest : List Byte) :
    encode targetPid (targetClass bits pusi afc b4 rest) =
      .block (encodePacket bits pusi (targetPid.setWidth 13) afc (b4 :: rest)) := by
  obtain rfl | rfl | rfl | rfl := afc_cases afc
  · rfl
  · cases pusi <;> rfl
  · rfl
  · cases pusi <;> rfl

theorem targetClass_wf {targetPid : Half} (reachable : pidReachable targetPid = true) (bits : IgnoredBits)
    (pusi : Bool) (afc : BitVec 2) (b4 : Byte) {rest : List Byte} (full : rest.length = 183) :
    (targetClass bits pusi afc b4 rest).wf targetPid = true := by
  obtain rfl | rfl | rfl | rfl := afc_cases afc <;> cases pusi <;> simp [targetClass, Instr.wf, reachable, full]

/-! ### A block of 188 bytes, byte by byte -/

/-- A block that passes the length test of spec/40_packet_demux.md R122 has a header, a byte 4 and 183 more. -/
theorem block_of_packetSize {block : List Byte} (full : block.length = packetSize) :
    ∃ b0 b1 b2 b3 b4 rest, block = b0 :: b1 :: b2 :: b3 :: b4 :: rest ∧ rest.length = 183 := by
  match block, full with
  | b0 :: b1 :: b2 :: b3 :: b4 :: rest, full =>
    refine ⟨b0, b1, b2, b3, b4, rest, rfl, ?_⟩
    simp only [List.length_cons, packetSize] at full
    omega

theorem decodeBlock_of_length {targetPid : Half} {block : List Byte} (badLength : block.length ≠ packetSize) :
    decodeBlock targetPid block = .pktBadLen block := if_pos badLength

theorem decodeBlock_cons (targetPid : Half) (b0 b1 b2 b3 b4 : Byte) {rest : List Byte} (full : rest.length = 183) :
    decodeBlock targetPid (b0 :: b1 :: b2 :: b3 :: b4 :: rest) = decodeHeader targetPid b0 b1 b2 b3 b4 rest :=
  if_neg (by simp [full, packetSize])

/-- The class of a written packet (spec/30_encoding.md R81, R98). -/
theorem decodeBlock_encodePacket (targetPid : Half) (bits : IgnoredBits) (pusi : Bool) (pid : BitVec 13)
    (afc : BitVec 2) (b4 : Byte) {rest : List Byte} (full : rest.length = 183) :
    decodeBlock targetPid (encodePacket bits pusi pid afc (b4 :: rest)) =
      if pid.setWidth 16 ≠ targetPid then .pktOtherPid bits pusi pid afc (b4 :: rest)
      else targetClass bits pusi afc b4 rest := by
  rw [encodePacket, decodeBlock_cons _ _ _ _ _ _ full, decodeHeader_eq]
  simp

/-- A packet on `TARGET_PID` decodes to its class by AFC and PUSI. -/
theorem decodeBlock_encodePacket_target {targetPid : Half} (reachable : pidReachable targetPid = true)
    (bits : IgnoredBits) (pusi : Bool) (afc : BitVec 2) (b4 : Byte) {rest : List Byte} (full : rest.length = 183) :
    decodeBlock targetPid (encodePacket bits pusi (targetPid.setWidth 13) afc (b4 :: rest)) =
      targetClass bits pusi afc b4 rest := by
  obtain ⟨pid, rfl⟩ := (pidReachable_iff _).mp reachable
  rw [decodeBlock_encodePacket _ _ _ _ _ _ full, pid_widened, if_neg (not_not_intro rfl)]

/-! ### The two routes of a block -/

theorem isStartFlag_eq_pusiOf : ∀ b1 : Byte, isStartFlag b1 = pusiOf b1 := by decide +kernel

theorem pidOf_cons (b0 b1 b2 : Byte) (rest : List Byte) (full : (b0 :: b1 :: b2 :: rest).length = packetSize) :
    pidOf (b0 :: b1 :: b2 :: rest) full = pidField b1 b2 := by
  have low (b : Byte) : (b &&& 0x1F#8).setWidth 13 = (b.extractLsb' 0 5).setWidth 13 := by
    revert b
    decide +kernel
  simp only [pidOf, readByte_eq_byteAt, byteAt_cons_succ, byteAt_cons_zero, low]
  exact BitVec.setWidth_append_eq_shiftLeft_setWidth_or.symm.trans (BitVec.setWidth_eq _)

theorem afcOf_cons (b0 b1 b2 b3 : Byte) (rest : List Byte)
    (full : (b0 :: b1 :: b2 :: b3 :: rest).length = packetSize) :
    afcOf (b0 :: b1 :: b2 :: b3 :: rest) full = afcField b3 := by
  have field (b : Byte) : ((b >>> 4) &&& 3#8).setWidth 2 = afcField b := by
    revert b
    decide +kernel
  simp only [afcOf, readByte_eq_byteAt, byteAt_cons_succ, byteAt_cons_zero, field]

/-- On a block of 188 bytes the demultiplexer's tests (spec/40_packet_demux.md R132) and the rows of R98 agree. -/
theorem execPkt_cons (b0 b1 b2 b3 b4 : Byte) {rest : List Byte} (full : rest.length = 183) (s : State) :
    execPkt (b0 :: b1 :: b2 :: b3 :: b4 :: rest) s =
      exec (decodeHeader s.params.targetPid b0 b1 b2 b3 b4 rest) s := by
  rw [decodeHeader_eq, execPkt]
  obtain ⟨badLength, -⟩ | ⟨_, tests⟩ := demux_cases (b0 :: b1 :: b2 :: b3 :: b4 :: rest) s.params.targetPid
  · simp [full, packetSize] at badLength
  simp only [pidOf_cons, afcOf_cons, isStartFlag_eq_pusiOf, byteAt_cons_succ, byteAt_cons_zero] at tests
  obtain ⟨sync, demuxed⟩ | ⟨sync, ⟨other, demuxed⟩ | ⟨own, tests⟩⟩ := tests
  · rw [demuxed, if_pos sync]
    rfl
  · rw [demuxed, if_neg (not_not_intro sync), if_pos other]
    rfl
  rw [if_neg (not_not_intro sync), if_neg (not_not_intro own), exec_targetClass]
  obtain ⟨afc, demuxed⟩ | ⟨afc, demuxed⟩ | ⟨afc, field, demuxed⟩ | ⟨afc, field, demuxed⟩ := tests
  · rw [demuxed, if_pos afc]
  · simp [demuxed, afc]
  · obtain ⟨-, drops⟩ | ⟨inside, -⟩ := passAfterField_cases b4 rest (pusiOf b1) s
    · simp [demuxed, afc, drops]
    · omega
  · obtain ⟨overrun, -⟩ | ⟨-, passes⟩ := passAfterField_cases b4 rest (pusiOf b1) s
    · omega
    · simp [demuxed, afc, passes, Nat.add_comm 5]

/-! ### The payload operations (spec/30_encoding.md R86, R87, R99) -/

/-- Operands of SEC.BEGIN are read back from the payload they are written as. -/
theorem decodeStartPayload_begin {ptr : Byte} {pre sec : List Byte} (hp : pre.length = ptr.toNat)
    (h3 : 3 ≤ sec.length) (tableId : sec.head? = some batTableId) :
    decodeStartPayload (ptr :: (pre ++ sec)) = .secBegin ptr pre sec := by
  match sec, h3 with
  | t :: u :: v :: more, _ =>
    obtain rfl : t = batTableId := by simpa using tableId
    simp [decodeStartPayload, ← hp]

/-- A start payload that meets the selecting condition of SEC.SKIP is skipped. -/
theorem decodeStartPayload_skip {payload : List Byte} (skip : skipPayload payload = true) :
    decodeStartPayload payload = .secSkip payload := by
  match payload with
  | ptr :: tail =>
    simp only [skipPayload] at skip
    split at skip
    next t u v more target =>
      have otherTable : t ≠ batTableId := by simpa using skip
      simp only [decodeStartPayload, target, if_neg otherTable]
    next short =>
      simp only [decodeStartPayload]

/-- What a start payload selects: SEC.BEGIN with operands that are written as that payload, or SEC.SKIP under its
selecting condition. -/
theorem decodeStartPayload_cases {payload : List Byte} (nonempty : 1 ≤ payload.length) :
    (∃ ptr pre sec, payload = ptr :: (pre ++ sec) ∧ pre.length = ptr.toNat ∧ 3 ≤ sec.length ∧
      sec.head? = some batTableId ∧ decodeStartPayload payload = .secBegin ptr pre sec) ∨
    (skipPayload payload = true ∧ decodeStartPayload payload = .secSkip payload) := by
  match payload, nonempty with
  | ptr :: tail, _ =>
    by_cases skip : skipPayload (ptr :: tail) = true
    · exact .inr ⟨skip, decodeStartPayload_skip skip⟩
    · simp only [skipPayload] at skip
      split at skip
      next t u v more target =>
        have tableId : t = batTableId := by simpa using skip
        have long : ptr.toNat ≤ tail.length := by
          have remaining := congrArg List.length target
          simp only [List.length_drop, List.length_cons] at remaining
          omega
        have written : tail = tail.take ptr.toNat ++ t :: u :: v :: more := by
          rw [← target, List.take_append_drop]
        have hp : (tail.take ptr.toNat).length = ptr.toNat := by simp [long]
        refine .inl ⟨ptr, tail.take ptr.toNat, t :: u :: v :: more, by rw [← written], hp, by simp, by simp [tableId],
          ?_⟩
        conv_lhs => rw [written]
        exact decodeStartPayload_begin hp (by simp) (by simp [tableId])
      next => exact absurd rfl skip

/-! ### The obligations on blocks and payloads -/

/-- The bytes after a header of four: byte 4 and the other 183. -/
theorem afterHeader_of_length {bytes : List Byte} (full : bytes.length = 184) :
    ∃ b4 rest, bytes = b4 :: rest ∧ rest.length = 183 := by
  obtain ⟨b4, rest, rfl⟩ := List.exists_cons_of_length_eq_add_one full
  exact ⟨b4, rest, rfl, Nat.succ.inj full⟩

/-- The round trip of rows 2 to 7, the classes on `TARGET_PID`. -/
theorem decode_encode_targetClass {targetPid : Half} (reachable : pidReachable targetPid = true) (collecting : Bool)
    (bits : IgnoredBits) (pusi : Bool) (afc : BitVec 2) (b4 : Byte) {rest : List Byte} (full : rest.length = 183) :
    decode targetPid collecting (encode targetPid (targetClass bits pusi afc b4 rest)) =
      .ok (targetClass bits pusi afc b4 rest) := by
  rw [encode_targetClass, decode, decodeBlock_encodePacket_target reachable bits pusi afc b4 full]

/-- The round trip of row 8. -/
theorem decodeBlock_otherPid {targetPid : Half} {pid : BitVec 13} (other : pid.setWidth 16 ≠ targetPid)
    (bits : IgnoredBits) (pusi : Bool) (afc : BitVec 2) {rest : List Byte} (full : rest.length = 184) :
    decodeBlock targetPid (encodePacket bits pusi pid afc rest) = .pktOtherPid bits pusi pid afc rest := by
  obtain ⟨b4, rest, rfl, length⟩ := afterHeader_of_length full
  rw [decodeBlock_encodePacket _ _ _ _ _ _ length, if_pos other]

/-- The round trip of row 9. -/
theorem decodeBlock_badSync (targetPid : Half) {first : Byte} {rest : List Byte} (badSync : first ≠ syncByte)
    (full : rest.length = 187) : decodeBlock targetPid (first :: rest) = .pktBadSync first rest := by
  match rest, full with
  | b1 :: b2 :: b3 :: b4 :: rest, full =>
    rw [decodeBlock_cons _ _ _ _ _ _ (Nat.add_right_cancel (m := 4) full), decodeHeader_eq, if_pos badSync]

/-- Settles O1, row by row: a class on `TARGET_PID` is a `targetClass`, a start payload is read back at its pointer
target, and `selectedBy` tells the two continuation operations apart. -/
theorem decodeOfEncodeIsTheOperation : Obligations.DecodeOfEncodeIsTheOperation := by
  intro targetPid collecting i wf selected notMerge
  cases i with
  | pktBadLen block => exact congrArg Except.ok (decodeBlock_of_length (of_decide_eq_true wf))
  | pktStartAfc01 bits payload =>
    obtain ⟨reachable, full⟩ : pidReachable targetPid = true ∧ payload.length = 184 := by simpa [Instr.wf] using wf
    obtain ⟨b4, rest, rfl, length⟩ := afterHeader_of_length full
    exact decode_encode_targetClass reachable collecting bits true 1#2 b4 length
  | pktContAfc01 bits payload =>
    obtain ⟨reachable, full⟩ : pidReachable targetPid = true ∧ payload.length = 184 := by simpa [Instr.wf] using wf
    obtain ⟨b4, rest, rfl, length⟩ := afterHeader_of_length full
    exact decode_encode_targetClass reachable collecting bits false 1#2 b4 length
  | pktStartAfc11 bits afLen rest =>
    obtain ⟨reachable, full⟩ : pidReachable targetPid = true ∧ rest.length = 183 := by simpa [Instr.wf] using wf
    exact decode_encode_targetClass reachable collecting bits true 3#2 afLen full
  | pktContAfc11 bits afLen rest =>
    obtain ⟨reachable, full⟩ : pidReachable targetPid = true ∧ rest.length = 183 := by simpa [Instr.wf] using wf
    exact decode_encode_targetClass reachable collecting bits false 3#2 afLen full
  | pktNoPayloadAfc00 bits pusi rest =>
    obtain ⟨reachable, full⟩ : pidReachable targetPid = true ∧ rest.length = 184 := by simpa [Instr.wf] using wf
    obtain ⟨b4, rest, rfl, length⟩ := afterHeader_of_length full
    exact decode_encode_targetClass reachable collecting bits pusi 0#2 b4 length
  | pktNoPayloadAfc10 bits pusi rest =>
    obtain ⟨reachable, full⟩ : pidReachable targetPid = true ∧ rest.length = 184 := by simpa [Instr.wf] using wf
    obtain ⟨b4, rest, rfl, length⟩ := afterHeader_of_length full
    exact decode_encode_targetClass reachable collecting bits pusi 2#2 b4 length
  | pktOtherPid bits pusi pid afc rest =>
    obtain ⟨other, full⟩ : pid.setWidth 16 ≠ targetPid ∧ rest.length = 184 := by simpa [Instr.wf] using wf
    exact congrArg Except.ok (decodeBlock_otherPid other bits pusi afc full)
  | pktBadSync first rest =>
    obtain ⟨badSync, full⟩ : first ≠ syncByte ∧ rest.length = 187 := by simpa [Instr.wf] using wf
    exact congrArg Except.ok (decodeBlock_badSync targetPid badSync full)
  | secBegin ptr pre sec =>
    simp only [Instr.wf, Bool.and_eq_true, decide_eq_true_eq, beq_iff_eq] at wf
    obtain ⟨⟨⟨hp, h3⟩, tableId⟩, -⟩ := wf
    exact congrArg Except.ok (decodeStartPayload_begin hp h3 tableId)
  | secSkip payload =>
    obtain ⟨-, skip⟩ := (Bool.and_eq_true _ _).mp wf
    exact congrArg Except.ok (decodeStartPayload_skip skip)
  | secAppend payload =>
    obtain rfl : collecting = true := selected
    rfl
  | secIgnore payload =>
    obtain rfl : collecting = false := by simpa [Instr.selectedBy] using selected
    rfl
  | mergeCreate sec => exact absurd rfl (notMerge sec)
  | mergeNew sec => exact absurd rfl (notMerge sec)
  | mergeDup sec => exact absurd rfl (notMerge sec)
  | mergeRange sec => exact absurd rfl (notMerge sec)
  | mergeOvf sec => exact absurd rfl (notMerge sec)
  | secDeliver buffer => rfl
  | sectionDecode buffer => rfl
  | descParse data => rfl
  | mergeAbsent => rfl
  | pkt block => rfl
  | reset => rfl
  | read key => rfl

/-- Settles O2, by the tests that lead to a block's class: each class keeps the bytes it was read from. -/
theorem encodeOfDecodeIsTheBlock : Obligations.EncodeOfDecodeIsTheBlock := by
  intro targetPid block
  by_cases full : block.length = packetSize
  · obtain ⟨b0, b1, b2, b3, b4, rest, rfl, length⟩ := block_of_packetSize full
    rw [decodeBlock_cons _ _ _ _ _ _ length, decodeHeader_eq]
    split_ifs with badSync other
    · exact ⟨rfl, by simp [Instr.wf, badSync, length]⟩
    · obtain rfl := not_not.mp badSync
      exact ⟨congrArg Encoded.block (encodePacket_fields b1 b2 b3 (b4 :: rest)), by simp [Instr.wf, other, length]⟩
    · obtain rfl := not_not.mp badSync
      obtain rfl := not_not.mp other
      refine ⟨?_, targetClass_wf ((pidReachable_iff _).mpr ⟨_, rfl⟩) _ _ _ _ length⟩
      rw [encode_targetClass, pid_widened, encodePacket_fields]
  · rw [decodeBlock_of_length full]
    exact ⟨rfl, decide_eq_true full⟩

/-- Settles O3: a start payload selects SEC.BEGIN or SEC.SKIP by its bytes, any other SEC.APPEND or SEC.IGNORE by the
reassembler's state, and each is written as the payload it was read from. -/
theorem encodeOfDecodeIsThePayload : Obligations.EncodeOfDecodeIsThePayload := by
  intro targetPid collecting isStart payload nonempty fits
  have length : payloadLength payload = true := by simp [payloadLength, nonempty, fits]
  cases isStart with
  | true =>
    change encode targetPid (decodeStartPayload payload) = _ ∧ (decodeStartPayload payload).wf targetPid = _ ∧
      (decodeStartPayload payload).selectedBy collecting = _
    obtain ⟨ptr, pre, sec, rfl, hp, h3, tableId, begins⟩ | ⟨skip, skips⟩ := decodeStartPayload_cases nonempty
    · rw [begins]
      refine ⟨rfl, ?_, rfl⟩
      simp only [List.length_cons, List.length_append] at fits
      simp only [Instr.wf, Bool.and_eq_true, decide_eq_true_eq, beq_iff_eq]
      exact ⟨⟨⟨hp, h3⟩, tableId⟩, by omega⟩
    · rw [skips]
      exact ⟨rfl, by simp [Instr.wf, length, skip], rfl⟩
  | false =>
    cases collecting
    · exact ⟨rfl, length, rfl⟩
    · exact ⟨rfl, length, rfl⟩

/-- Settles O8, by the length test and, past it, by the bytes of the header. -/
theorem pktDoesWhatItsClassDoes : Obligations.PktDoesWhatItsClassDoes := by
  intro block s
  by_cases full : block.length = packetSize
  · obtain ⟨b0, b1, b2, b3, b4, rest, rfl, length⟩ := block_of_packetSize full
    rw [decodeBlock_cons _ _ _ _ _ _ length]
    exact execPkt_cons b0 b1 b2 b3 b4 length s
  · rw [decodeBlock_of_length full]
    change execPkt block s = dropBlock (.frameLen block.length) s
    rw [execPkt, demux, dif_neg full]

/-! ### The bits no rule reads (spec/30_encoding.md R82) -/

/-- Two sequences with the same bytes from an index on have the same tail there. -/
theorem drop_eq_drop_of_byteAt {a b : List Byte} {n : Nat} (length : a.length = b.length)
    (same : ∀ i, n ≤ i → byteAt a i = byteAt b i) : a.drop n = b.drop n := by
  refine List.ext_getElem (by simp [length]) fun i ha hb => ?_
  rw [← readByte, ← readByte, readByte_eq_byteAt, readByte_eq_byteAt, byteAt_drop, byteAt_drop]
  exact same _ (Nat.le_add_right n i)

/-- The tests and the payload of the demultiplexer read no ignored bit. -/
theorem demux_eq_of_sameButIgnoredBits {a b : List Byte} (same : SameButIgnoredBits a b) (targetPid : Half) :
    demux a targetPid = demux b targetPid := by
  obtain ⟨length, bytes, byte1, byte3⟩ := same
  by_cases full : a.length = packetSize
  · have full' : b.length = packetSize := length ▸ full
    have low : byteAt a 1 &&& 0x1F#8 = byteAt b 1 &&& 0x1F#8 := by
      simpa [BitVec.and_assoc] using congrArg (· &&& 0x1F#8) byte1
    have flag : byteAt a 1 &&& 0x40#8 = byteAt b 1 &&& 0x40#8 := by
      simpa [BitVec.and_assoc] using congrArg (· &&& 0x40#8) byte1
    have pid : pidOf a full = pidOf b full' := by
      simp only [pidOf, readByte_eq_byteAt, low, bytes 2 (by decide) (by decide)]
    have afc : afcOf a full = afcOf b full' := by
      have field : ∀ x : Byte, (x >>> 4) &&& 3#8 = (x &&& 0x30#8) >>> 4 := by decide +kernel
      simp only [afcOf, readByte_eq_byteAt, field, byte3]
    have payload (off : Nat) (after : 4 ≤ off) : a.drop off = b.drop off :=
      drop_eq_drop_of_byteAt length fun i beyond => bytes i (by omega) (by omega)
    have field (afLen : Byte) : a.drop (afPayloadOffset afLen) = b.drop (afPayloadOffset afLen) :=
      payload _ (by unfold afPayloadOffset; omega)
    simp only [demux, full, full', dif_pos, demuxPacket, readByte_eq_byteAt, pid, afc, isStartFlag, flag,
      bytes 0 (by decide) (by decide), bytes 4 (by decide) (by decide), apply_ite (List.drop · a),
      apply_ite (List.drop · b), payload 4 (Nat.le_refl 4), field]
  · have full' : b.length ≠ packetSize := length ▸ full
    rw [demux, demux, dif_neg full, dif_neg full', length]

/-- Settles O17: the rest of PKT has only the demultiplexer's answer. -/
theorem ignoredHeaderBitsHaveNoEffect : Obligations.IgnoredHeaderBitsHaveNoEffect := by
  intro a b s same
  change execPkt a s = execPkt b s
  rw [execPkt, execPkt, demux_eq_of_sameButIgnoredBits same]

/-! ### Table words -/

/-- Settles O4, by evaluation of the decoder on each word. -/
theorem headerWordsOfTheSpecDecode : Obligations.HeaderWordsOfTheSpecDecode := by
  unfold Obligations.HeaderWordsOfTheSpecDecode
  decide +kernel

end Sys2Proof.Machine
end

section
/-! PROOFS. The obligations of spec/30_encoding.md, continued: the byte string BATSEC (R101) through the Section
Decoder. -/

namespace Sys2Proof.Machine

/-! ### Written fields read back (spec/20_memory.md R60, spec/30_encoding.md R101) -/

/-- A 12-bit length is read back whatever stands in the four bits above it. -/
theorem twelveBits_len12Bytes (upper : BitVec 4) {n : Nat} (fits : n ≤ 4095) :
    twelveBits (upper ++ (BitVec.ofNat 12 n).extractLsb' 8 4) ((BitVec.ofNat 12 n).extractLsb' 0 8) = n := by
  have low : (upper ++ (BitVec.ofNat 12 n).extractLsb' 8 4).toNat % 16 = ((BitVec.ofNat 12 n).extractLsb' 8 4).toNat :=
    (BitVec.toNat_setWidth _ _).symm.trans (congrArg BitVec.toNat BitVec.setWidth_append_eq_right)
  rw [twelveBits, low]
  simp only [BitVec.extractLsb'_toNat, BitVec.toNat_ofNat, Nat.shiftRight_eq_div_pow]
  omega

/-- A 16-bit field is read back. -/
theorem be16Bytes_toNat (v : Half) : 256 * (v.extractLsb' 8 8).toNat + (v.extractLsb' 0 8).toNat = v.toNat := by
  have := v.isLt
  simp only [BitVec.extractLsb'_toNat, Nat.shiftRight_eq_div_pow]
  omega

theorem versionByte_toNat (version : BitVec 5) : (3#2 ++ version ++ 1#1).toNat / 2 % 32 = version.toNat := by
  revert version
  decide +kernel

/-- The middle of three sequences. -/
theorem slice_middle (a b c : List Byte) {first last : Nat} (start : first = a.length)
    (stop : last = a.length + b.length) : slice (a ++ (b ++ c)) first last = b := by
  subst start stop
  rw [slice, ← List.append_assoc, ← List.length_append, List.take_left, List.drop_left]

/-! ### The Descriptor Codec on a written loop (spec/41_descriptor_codec.md R151) -/

theorem encodeDescriptors_cons (d : Descriptor) (ds : List Descriptor) :
    encodeDescriptors (d :: ds) = d.tag :: BitVec.ofNat 8 d.data.length :: (d.data ++ encodeDescriptors ds) := rfl

/-- The loop consumes a written descriptor list to its end and emits exactly it. -/
theorem parseLoop_encodeDescriptors {ds : List Descriptor} (wf : ds.all Descriptor.wf = true) {fuel : Nat}
    (enough : (encodeDescriptors ds).length ≤ fuel) (pos : Nat) :
    parseLoop fuel (encodeDescriptors ds) pos =
      { descriptors := ds, consumed := pos + (encodeDescriptors ds).length } := by
  induction ds generalizing fuel pos with
  | nil => cases fuel <;> rfl
  | cons d ds ih =>
    obtain ⟨short, wf⟩ := (Bool.and_eq_true _ _).mp wf
    have len : (BitVec.ofNat 8 d.data.length).toNat = d.data.length := by
      have : d.data.length ≤ 255 := of_decide_eq_true short
      rw [BitVec.toNat_ofNat]
      omega
    rw [encodeDescriptors_cons] at enough ⊢
    simp only [List.length_cons, List.length_append] at enough
    match fuel, enough with
    | fuel + 1, enough =>
      have rounds : (encodeDescriptors ds).length ≤ fuel := by omega
      simp [parseLoop, len, ih wf rounds]
      omega

theorem parseDescriptors_encodeDescriptors {ds : List Descriptor} (wf : ds.all Descriptor.wf = true) :
    parseDescriptors (encodeDescriptors ds) =
      { descriptors := ds, consumed := (encodeDescriptors ds).length } := by
  rw [parseDescriptors, parseLoop_encodeDescriptors wf (Nat.le_refl _), Nat.zero_add]

theorem parseEvents_encodeDescriptors {ds : List Descriptor} (wf : ds.all Descriptor.wf = true) :
    parseEvents (encodeDescriptors ds) = [] := by
  simp [parseEvents, parseDescriptors_encodeDescriptors wf]

/-! ### The transport-stream loop on written entries (spec/42_section_decoder.md R182 to R185) -/

/-- The six header bytes of a written entry. -/
def entryHeader (t : TransportStream) : List Byte :=
  be16Bytes t.transportStreamId ++ be16Bytes t.originalNetworkId ++
    len12Bytes 0xF#4 (encodeDescriptors t.descriptors).length

theorem encodeEntries_cons (t : TransportStream) (ts : List TransportStream) :
    encodeEntries (t :: ts) = entryHeader t ++ (encodeDescriptors t.descriptors ++ encodeEntries ts) := by
  simp [encodeEntries, encodeEntry, entryHeader]

theorem length_entryHeader (t : TransportStream) : (entryHeader t).length = 6 := rfl

/-- The loop reads written entries to their end and emits exactly them, with no event. -/
theorem entryLoop_encodeEntries {ts : List TransportStream} (wf : ts.all TransportStream.wf = true)
    (fits : (encodeEntries ts).length ≤ 4095) {fuel : Nat} (enough : (encodeEntries ts).length ≤ fuel) (q : Nat) :
    entryLoop fuel (encodeEntries ts) q =
      { entries := ts, stop := q + (encodeEntries ts).length, events := [] } := by
  induction ts generalizing fuel q with
  | nil =>
    cases fuel with
    | zero => rfl
    | succ fuel => rfl
  | cons t ts ih =>
    obtain ⟨wfEntry, wf⟩ := (Bool.and_eq_true _ _).mp wf
    have length : (encodeEntries (t :: ts)).length =
        6 + (encodeDescriptors t.descriptors).length + (encodeEntries ts).length := by
      simp [encodeEntries_cons, length_entryHeader, Nat.add_assoc]
    match fuel, enough with
    | 0, enough => omega
    | fuel + 1, enough =>
      have loop := entryLoop_cases fuel (encodeEntries (t :: ts)) q
      have dl : twelveBits (byteAt (encodeEntries (t :: ts)) 4) (byteAt (encodeEntries (t :: ts)) 5) =
          (encodeDescriptors t.descriptors).length := twelveBits_len12Bytes 0xF#4 (by omega)
      have own : slice (encodeEntries (t :: ts)) 6 (6 + (encodeDescriptors t.descriptors).length) =
          encodeDescriptors t.descriptors := by
        rw [encodeEntries_cons]
        exact slice_middle _ _ _ rfl rfl
      have others : (encodeEntries (t :: ts)).drop (6 + (encodeDescriptors t.descriptors).length) =
          encodeEntries ts := by
        rw [encodeEntries_cons, ← List.append_assoc]
        exact List.drop_left' (by simp [length_entryHeader])
      simp only [dl, own, others, length] at loop
      obtain ⟨stops, -⟩ | ⟨-, e, emits, tsId, netId, ds⟩ := loop
      · omega
      · have same : e = t := by
          obtain ⟨eTs, eNet, eDs⟩ := e
          obtain rfl : eTs = t.transportStreamId := BitVec.eq_of_toNat_eq (tsId.trans (be16Bytes_toNat _))
          obtain rfl : eNet = t.originalNetworkId := BitVec.eq_of_toNat_eq (netId.trans (be16Bytes_toNat _))
          obtain rfl : eDs = t.descriptors := ds.trans (by rw [parseDescriptors_encodeDescriptors wfEntry])
          rfl
        rw [emits, same, ih wf (by omega) (by omega), parseEvents_encodeDescriptors wfEntry, length]
        simp
        omega

/-! ### BATSEC (spec/30_encoding.md R101) -/

/-- The ten header bytes of a written section, up to the bouquet loop. -/
def batsecHeader (sec : BATSection) : List Byte :=
  batTableId :: (len12Bytes 0xF#4 (batsecLength sec) ++ be16Bytes sec.bouquetId ++
    [3#2 ++ sec.versionNumber ++ 1#1, sec.sectionNumber, sec.lastSectionNumber] ++
    len12Bytes 0xF#4 (encodeDescriptors sec.bouquetDescriptors).length)

/-- What follows the transport-stream loop: the CRC and the surplus. -/
def batsecTail (crc : BitVec 32) (extra : List Byte) : List Byte :=
  [crc.extractLsb' 24 8, crc.extractLsb' 16 8, crc.extractLsb' 8 8, crc.extractLsb' 0 8] ++ extra

theorem batsec_append (sec : BATSection) (crc : BitVec 32) (extra : List Byte) :
    batsec sec crc ++ extra =
      batsecHeader sec ++ (encodeDescriptors sec.bouquetDescriptors ++
        (len12Bytes 0xF#4 (encodeEntries sec.transportStreams).length ++
          (encodeEntries sec.transportStreams ++ batsecTail crc extra))) := by
  simp [batsec, batsecHeader, batsecTail]

theorem length_batsecHeader (sec : BATSection) : (batsecHeader sec).length = 10 := rfl

theorem batsecLength_eq (sec : BATSection) :
    batsecLength sec = 7 + (encodeDescriptors sec.bouquetDescriptors).length + 2 +
      (encodeEntries sec.transportStreams).length + 4 := rfl

theorem length_batsec_append (sec : BATSection) (crc : BitVec 32) (extra : List Byte) :
    (batsec sec crc ++ extra).length = 3 + batsecLength sec + extra.length := by
  simp [batsec, batsecLength, len12Bytes, be16Bytes]
  omega

theorem declaredLength_batsec {sec : BATSection} (fits : batsecLength sec ≤ 4095) (crc : BitVec 32)
    (extra : List Byte) : declaredLength (batsec sec crc ++ extra) = 3 + batsecLength sec :=
  congrArg (3 + ·) (twelveBits_len12Bytes 0xF#4 fits)

section
variable {sec : BATSection} (wf : sec.wf = true) (fits : batsecLength sec ≤ 4095) (crc : BitVec 32)
  (extra : List Byte)
include wf fits

theorem transportLoop_batsec {bound p : Nat} (within : bound ≤ (batsec sec crc ++ extra).length)
    (hbound : bound = 3 + batsecLength sec) (hp : p = 10 + (encodeDescriptors sec.bouquetDescriptors).length) :
    transportLoop (batsec sec crc ++ extra) bound p within =
      { entries := sec.transportStreams, events := [] } := by
  obtain ⟨-, wfEntries⟩ := (Bool.and_eq_true _ _).mp wf
  have total := batsecLength_eq sec
  have at_p (i : Nat) : byteAt (batsec sec crc ++ extra) (p + i) =
      byteAt (len12Bytes 0xF#4 (encodeEntries sec.transportStreams).length ++
        (encodeEntries sec.transportStreams ++ batsecTail crc extra)) i := by
    rw [batsec_append, hp, ← length_batsecHeader sec, Nat.add_assoc, byteAt_append_right, byteAt_append_right]
  have tsl : twelveBits (byteAt (batsec sec crc ++ extra) p) (byteAt (batsec sec crc ++ extra) (p + 1)) =
      (encodeEntries sec.transportStreams).length := by
    have byte0 := at_p 0
    rw [Nat.add_zero] at byte0
    rw [byte0, at_p 1]
    exact twelveBits_len12Bytes 0xF#4 (by omega)
  have span : slice (batsec sec crc ++ extra) (p + 2)
      (min (p + 2 + (encodeEntries sec.transportStreams).length) bound) = encodeEntries sec.transportStreams := by
    have before : p + 2 = (batsecHeader sec ++ encodeDescriptors sec.bouquetDescriptors ++
        len12Bytes 0xF#4 (encodeEntries sec.transportStreams).length).length := by
      rw [List.length_append, List.length_append, length_batsecHeader, hp]
      rfl
    rw [Nat.min_eq_left (by omega), batsec_append, ← List.append_assoc, ← List.append_assoc]
    exact slice_middle _ _ _ before (before ▸ rfl)
  rw [transportLoop_eq within (tsl ▸ rfl) span.symm rfl,
    entryLoop_encodeEntries wfEntries (by omega) (Nat.le_refl _), if_neg (by omega),
    Nat.min_eq_left (by omega), if_neg (Nat.lt_irrefl _), clampEvents, if_neg (by omega)]
  rfl

theorem sectionLoops_batsec {bound : Nat} (within : bound ≤ (batsec sec crc ++ extra).length)
    (hbound : bound = 3 + batsecLength sec) :
    sectionLoops (batsec sec crc ++ extra) bound within =
      { bouquetDescriptors := sec.bouquetDescriptors, transportStreams := sec.transportStreams, events := [] } := by
  obtain ⟨wfDescriptors, -⟩ := (Bool.and_eq_true _ _).mp wf
  have total := batsecLength_eq sec
  have bdl : twelveBits (byteAt (batsec sec crc ++ extra) 8) (byteAt (batsec sec crc ++ extra) 9) =
      (encodeDescriptors sec.bouquetDescriptors).length := twelveBits_len12Bytes 0xF#4 (by omega)
  have span : slice (batsec sec crc ++ extra) 10
      (min (10 + (encodeDescriptors sec.bouquetDescriptors).length) bound) =
        encodeDescriptors sec.bouquetDescriptors := by
    rw [Nat.min_eq_left (by omega), batsec_append]
    exact slice_middle _ _ _ rfl rfl
  rw [sectionLoops_eq within (bdl ▸ rfl) span.symm, transportLoop_batsec wf fits crc extra within hbound rfl,
    if_neg (by omega), parseDescriptors_encodeDescriptors wfDescriptors, parseEvents_encodeDescriptors wfDescriptors,
    clampEvents, if_neg (by omega)]
  rfl

/-- The Section Decoder reads a written section back, whatever follows it (spec/95_test_vectors.md VS5). -/
theorem decodeSection_batsec : decodeSection (batsec sec crc ++ extra) = { result := .ok sec, events := [] } := by
  have declared := declaredLength_batsec fits crc extra
  have length := length_batsec_append sec crc extra
  have total := batsecLength_eq sec
  obtain ⟨short, -⟩ | ⟨-, ⟨otherTable, -⟩ | ⟨-, ⟨short, -⟩ |
      ⟨within, sec', decoded, id, version, number, last, descriptors, entries⟩⟩⟩ :=
    decodeSection_cases (batsec sec crc ++ extra)
  · omega
  · exact absurd rfl otherTable
  · omega
  · rw [sectionLoops_batsec wf fits crc extra within declared] at decoded descriptors entries
    have same : sec' = sec := by
      obtain ⟨id', version', number', last', descriptors', entries'⟩ := sec'
      obtain rfl : id' = sec.bouquetId := BitVec.eq_of_toNat_eq (id.trans (be16Bytes_toNat _))
      obtain rfl : version' = sec.versionNumber := BitVec.eq_of_toNat_eq (version.trans (versionByte_toNat _))
      obtain rfl : number' = sec.sectionNumber := number
      obtain rfl : last' = sec.lastSectionNumber := last
      obtain rfl : descriptors' = sec.bouquetDescriptors := descriptors
      obtain rfl : entries' = sec.transportStreams := entries
      rfl
    rw [decoded, same]

end

/-- Settles O5: SECTION.DECODE puts out what the Section Decoder answers. -/
theorem sectionDecodeInvertsBatsec : Obligations.SectionDecodeInvertsBatsec := by
  intro sec crc extra s wf fits
  change finish s (.decoded (decodeSection (batsec sec crc ++ extra)).result
    (decodeSection (batsec sec crc ++ extra)).events) = _
  rw [decodeSection_batsec wf fits]
  rfl

end Sys2Proof.Machine
end

section
/-! PROOFS. The obligations of spec/40_packet_demux.md: the demultiplexer's tests by the bytes of a block, the classes
that drop it, and the classes that hand its payload to the operation the payload selects. -/

namespace Sys2Proof.Machine

/-! ### A dropped block and a payload handed on, as the statements report them (spec/45_block_operations.md R286) -/

/-- A block without payload writes nothing but the report (spec/40_packet_demux.md R143). -/
theorem dropBlock_eq (ev : Event) (s : State) : dropBlock ev s = .next (s.withOutput (droppedResult ev)) := rfl

/-- A payload handed on leaves what the operation it selects leaves, and the step reports that
(spec/45_block_operations.md R280). -/
theorem passPayload_runs_selected {payload : List Byte} {length : Nat} (hlen : payload.length = length)
    (isStart : Bool) (s : State) :
    ∃ (t : State) (r : ReasmReport),
      exec (decodePayload (collectingFlag s) isStart payload) s = .next (t.withOutput (.reasm r)) ∧
      passPayload payload isStart s = .next (t.withOutput (payloadResult length isStart r)) := by
  subst hlen
  exact ⟨_, _, exec_decodePayload isStart payload s, rfl⟩

/-- An adaptation field of 183 bytes or more leaves no payload (spec/40_packet_demux.md R140). -/
theorem passAfterField_of_overrun {afLen : Byte} (overrun : 183 ≤ afLen.toNat) (rest : List Byte) (isStart : Bool)
    (s : State) : passAfterField afLen rest isStart s = .next (s.withOutput (droppedResult (.afOverrun afLen))) := by
  obtain ⟨-, drops⟩ | ⟨inside, -⟩ := passAfterField_cases afLen rest isStart s
  · exact drops.trans (dropBlock_eq _ s)
  · omega

/-- The payload after an adaptation field of at most 182 bytes runs the operation it selects
(spec/40_packet_demux.md R140). -/
theorem passAfterField_runs_selected {afLen : Byte} (inside : afLen.toNat ≤ 182) {rest : List Byte}
    (full : rest.length = 183) (isStart : Bool) (s : State) :
    ∃ (t : State) (r : ReasmReport),
      exec (decodePayload (collectingFlag s) isStart (rest.drop afLen.toNat)) s = .next (t.withOutput (.reasm r)) ∧
      passAfterField afLen rest isStart s =
        .next (t.withOutput (payloadResult (183 - afLen.toNat) isStart r)) := by
  obtain ⟨overrun, -⟩ | ⟨-, passes⟩ := passAfterField_cases afLen rest isStart s
  · omega
  · rw [passes]
    exact passPayload_runs_selected (by rw [List.length_drop, full]) isStart s

/-! ### The demultiplexer's tests in order, by the bytes of a block (spec/40_packet_demux.md R131, R132) -/

/-- A PID field and a `TARGET_PID` are compared as numbers (spec/40_packet_demux.md R125). -/
theorem setWidth_eq_iff_toNat (pid : BitVec 13) (targetPid : Half) :
    pid.setWidth 16 = targetPid ↔ pid.toNat = targetPid.toNat := by
  rw [← BitVec.toNat_inj, BitVec.toNat_setWidth_of_le (by decide)]

/-- The start flag is bit 6 of byte 1 (spec/40_packet_demux.md R129). -/
theorem isStartFlag_eq_decide : ∀ byte1 : Byte, isStartFlag byte1 = decide (byte1.toNat / 64 % 2 = 1) := by
  decide +kernel

/-- The value of the adaptation-field-control decides the field (spec/40_packet_demux.md R126). -/
theorem afcOf_eq {block : List Byte} (full : block.length = packetSize) {afc : BitVec 2}
    (value : (byteAt block 3).toNat / 16 % 4 = afc.toNat) : afcOf block full = afc :=
  BitVec.eq_of_toNat_eq ((afcOf_toNat block full).trans value)

/-- The tests a block of 188 bytes goes through, the first failing one names the event. -/
theorem demux_of_packetSize {block : List Byte} (full : block.length = packetSize) (targetPid : Half) :
    demux block targetPid =
      if byteAt block 0 ≠ syncByte then .drop (.frameSync (byteAt block 0))
      else if (pidOf block full).toNat ≠ targetPid.toNat then .drop (.pidMismatch (pidOf block full))
      else if afcOf block full = 0#2 ∨ afcOf block full = 2#2 then .drop (.noPayload (afcOf block full))
      else if afcOf block full = 1#2 then .pass (block.drop 4) (isStartFlag (byteAt block 1))
      else if 183 ≤ (byteAt block 4).toNat then .drop (.afOverrun (byteAt block 4))
      else .pass (block.drop (5 + (byteAt block 4).toNat)) (isStartFlag (byteAt block 1)) := by
  obtain ⟨badLength, -⟩ | ⟨_, tests⟩ := demux_cases block targetPid
  · exact absurd full badLength
  simp only [← setWidth_eq_iff_toNat, ne_eq]
  obtain ⟨sync, demuxed⟩ | ⟨sync, ⟨other, demuxed⟩ | ⟨own, tests⟩⟩ := tests
  · rw [demuxed, if_pos sync]
  · rw [demuxed, if_neg (not_not_intro sync), if_pos other]
  rw [if_neg (not_not_intro sync), if_neg (not_not_intro own)]
  obtain ⟨afc, demuxed⟩ | ⟨afc, demuxed⟩ | ⟨afc, field, demuxed⟩ | ⟨afc, field, demuxed⟩ := tests
  · rw [demuxed, if_pos afc]
  · simp [demuxed, afc]
  · simp [demuxed, afc, field]
  · simp [demuxed, afc, Nat.not_le.mpr (Nat.lt_succ_of_le field)]

/-- PKT drops what the demultiplexer drops (spec/45_block_operations.md R280). -/
theorem exec_pkt_of_drop {block : List Byte} {s : State} {ev : Event}
    (drops : demux block s.params.targetPid = .drop ev) :
    exec (.pkt block) s = .next (s.withOutput (droppedResult ev)) := by
  change execPkt block s = _
  rw [execPkt, drops]
  rfl

/-- PKT runs the operation selected by the payload the demultiplexer hands on (spec/45_block_operations.md R280). -/
theorem exec_pkt_of_pass {block payload : List Byte} {isStart : Bool} {s : State}
    (passes : demux block s.params.targetPid = .pass payload isStart) :
    ∃ (t : State) (r : ReasmReport),
      exec (decodePayload (collectingFlag s) isStart payload) s = .next (t.withOutput (.reasm r)) ∧
      exec (.pkt block) s = .next (t.withOutput (payloadResult payload.length isStart r)) := by
  change ∃ t r, _ ∧ execPkt block s = _
  rw [execPkt, passes]
  exact passPayload_runs_selected rfl isStart s

/-! ### The classes that drop a block (spec/40_packet_demux.md R133 to R137) -/

/-- When the class of a block drops it, so does PKT. -/
theorem decodes_and_drops {block : List Byte} {i : Instr} {s : State} {ev : Event}
    (decodes : decodeBlock s.params.targetPid block = i) (drops : exec i s = dropBlock ev s) :
    decodeBlock s.params.targetPid block = i ∧
    exec i s = .next (s.withOutput (droppedResult ev)) ∧
    exec (.pkt block) s = .next (s.withOutput (droppedResult ev)) := by
  subst decodes
  exact ⟨rfl, drops, (pktDoesWhatItsClassDoes block s).trans drops⟩

/-- Settles O9: the length is row 1 of the operation map. -/
theorem blocksOfAnotherLengthAreDropped : Obligations.BlocksOfAnotherLengthAreDropped :=
  fun _ _ badLength => decodes_and_drops (decodeBlock_of_length badLength) rfl

/-- Settles O10, by row 9 of the operation map. -/
theorem blocksWithoutSyncByteAreDropped : Obligations.BlocksWithoutSyncByteAreDropped :=
  fun _ _ _ badSync full => decodes_and_drops (decodeBlock_badSync _ badSync full) rfl

/-- Settles O11, by row 8 of the operation map. -/
theorem foreignPacketsAreDropped : Obligations.ForeignPacketsAreDropped :=
  fun bits pusi _ afc _ _ full other => decodes_and_drops (decodeBlock_otherPid other bits pusi afc full) rfl

/-- Settles O12, by the class on `TARGET_PID` at AFC 00 and AFC 10. -/
theorem packetsWithoutPayloadAreDropped : Obligations.PacketsWithoutPayloadAreDropped := by
  intro bits pusi pid rest s full own
  obtain ⟨b4, rest, rfl, length⟩ := afterHeader_of_length full
  have decodes (afc : BitVec 2) : decodeBlock s.params.targetPid (encodePacket bits pusi pid afc (b4 :: rest)) =
      targetClass bits pusi afc b4 rest := by
    rw [decodeBlock_encodePacket _ _ _ _ _ _ length, if_neg (not_not_intro own)]
  exact ⟨decodes_and_drops (decodes 0#2) rfl, decodes_and_drops (decodes 2#2) rfl⟩

/-- Settles O16, test by test in the order of the demultiplexer. -/
theorem firstFailingTestNamesTheEvent : Obligations.FirstFailingTestNamesTheEvent := by
  intro block s
  refine ⟨fun badLength => exec_pkt_of_drop (dif_neg badLength), fun full => ?_⟩
  have tests := demux_of_packetSize full s.params.targetPid
  refine ⟨fun badSync => exec_pkt_of_drop (tests.trans (if_pos badSync)),
    fun (sync : byteAt block 0 = syncByte) pid value => ?_⟩
  obtain rfl : pidOf block full = pid := BitVec.eq_of_toNat_eq ((pidOf_toNat block full).trans value.symm)
  rw [if_neg (not_not_intro sync)] at tests
  refine ⟨fun other => exec_pkt_of_drop (tests.trans (if_pos other)), fun own => ?_⟩
  rw [if_neg (not_not_intro own)] at tests
  refine ⟨fun value => ?_, fun value => ?_, fun value overrun => ?_⟩
  · rw [afcOf_eq full (afc := 0#2) value] at tests
    exact exec_pkt_of_drop tests
  · rw [afcOf_eq full (afc := 2#2) value] at tests
    exact exec_pkt_of_drop tests
  · rw [afcOf_eq full (afc := 3#2) value] at tests
    exact exec_pkt_of_drop (tests.trans (if_pos overrun))

/-! ### The classes that may carry a payload (spec/40_packet_demux.md R138 to R141) -/

/-- Settles O13: AFC 01 hands on all 184 bytes, AFC 11 what its adaptation field leaves. -/
theorem payloadClassesRunTheirPayload : Obligations.PayloadClassesRunTheirPayload := by
  intro bits s
  refine ⟨fun payload full => ?_, fun afLen rest full => ⟨fun inside => ?_, fun overrun => ?_⟩⟩
  · have runs (isStart : Bool) := passPayload_runs_selected full isStart s
    exact ⟨runs true, runs false⟩
  · have runs (isStart : Bool) := passAfterField_runs_selected inside full isStart s
    exact ⟨runs true, runs false⟩
  · have drops (isStart : Bool) := passAfterField_of_overrun overrun rest isStart s
    exact ⟨drops true, drops false⟩

/-- Settles O14: every test before the payload passes, and AFC fixes the payload's offset. -/
theorem pktHandsThePayloadOn : Obligations.PktHandsThePayloadOn := by
  intro block payload isStart s full (sync : byteAt block 0 = syncByte) own flag afc
  have tests := demux_of_packetSize full s.params.targetPid
  rw [if_neg (not_not_intro sync), if_neg (not_not_intro ((pidOf_toNat block full).trans own)), isStartFlag_eq_decide,
    ← flag] at tests
  obtain ⟨value, rfl⟩ | ⟨value, inside, rfl⟩ := afc
  · rw [afcOf_eq full (afc := 1#2) value] at tests
    exact exec_pkt_of_pass tests
  · rw [afcOf_eq full (afc := 3#2) value] at tests
    exact exec_pkt_of_pass (tests.trans (if_neg (Nat.not_le.mpr (Nat.lt_succ_of_le inside))))

end Sys2Proof.Machine
end

section
/-! PROOFS. The obligation of spec/41_descriptor_codec.md: what DESC.PARSE makes of any byte span. -/

namespace Sys2Proof.Machine

/-! ### A span at which the loop stops (spec/41_descriptor_codec.md R151, R154) -/

/-- No descriptor starts a span: its header is cut off or its declared length overruns the span. -/
def StartsNoDescriptor (tail : List Byte) : Prop :=
  tail.length < 2 ∨ tail.length < 2 + (byteAt tail 1).toNat

theorem startsNoDescriptor_drop {data : List Byte} {n : Nat} (inside : n ≤ data.length) :
    StartsNoDescriptor (data.drop n) ↔
      data.length - n < 2 ∨ data.length < n + 2 + (byteAt data (n + 1)).toNat := by
  rw [StartsNoDescriptor, byteAt_drop, List.length_drop]
  omega

/-! ### The Descriptor Codec on any span (spec/41_descriptor_codec.md R151) -/

/-- A descriptor cut from the front of a span is written as the bytes it was cut from. -/
theorem encodeDescriptors_cut (tag len : Byte) {tail : List Byte} (fits : len.toNat ≤ tail.length)
    (ds : List Descriptor) :
    encodeDescriptors ({ tag := tag, data := tail.take len.toNat } :: ds) =
      tag :: len :: (tail.take len.toNat ++ encodeDescriptors ds) := by
  rw [encodeDescriptors_cons, List.length_take_of_le fits, BitVec.ofNat_toNat, BitVec.setWidth_eq]

/-- The loop splits its span into the bytes of what it emits, which it counts, and a rest that starts no descriptor.
As many rounds as bytes are enough (R157). -/
theorem parseLoop_splits_span {fuel : Nat} {rest : List Byte} (enough : rest.length ≤ fuel) (pos : Nat) :
    let parsed := parseLoop fuel rest pos
    let written := encodeDescriptors parsed.descriptors
    ∃ tail, rest = written ++ tail ∧ parsed.consumed = pos + written.length ∧ StartsNoDescriptor tail := by
  induction fuel, rest, pos using parseLoop.induct with
  | case1 fuel tag len tail pos fits ih =>
    have rounds : (tail.drop len.toNat).length ≤ fuel := by
      simp only [List.length_cons] at enough
      rw [List.length_drop]
      omega
    obtain ⟨unread, split, counted, stops⟩ := ih rounds
    simp only [parseLoop, fits, if_true, encodeDescriptors_cut]
    refine ⟨unread, ?_, ?_, stops⟩
    · rw [List.cons_append, List.cons_append, List.append_assoc, ← split, List.take_append_drop]
    · simp only [counted, List.length_cons, List.length_append, List.length_take_of_le fits]
      omega
  | case2 fuel tag len tail pos overrun =>
    simp only [parseLoop, overrun, if_false]
    refine ⟨tag :: len :: tail, rfl, rfl, .inr ?_⟩
    simp only [List.length_cons, byteAt_cons_succ, byteAt_cons_zero]
    omega
  | case3 fuel rest pos stops =>
    have short : rest.length < 2 := by
      match fuel, rest, enough with
      | _, [], _ => decide
      | _, [_], _ => exact Nat.one_lt_two
      | fuel + 1, tag :: len :: tail, _ => exact (stops fuel tag len tail rfl rfl).elim
    simp only [parseLoop]
    exact ⟨rest, rfl, rfl, .inl short⟩

/-- DESC.PARSE consumes the bytes of the descriptors it returns, a prefix of its span, and stops at a rest that starts
no descriptor. -/
theorem parseDescriptors_consumes_prefix (data : List Byte) :
    let parsed := parseDescriptors data
    parsed.consumed ≤ data.length ∧ encodeDescriptors parsed.descriptors = data.take parsed.consumed ∧
      StartsNoDescriptor (data.drop parsed.consumed) := by
  intro parsed
  obtain ⟨tail, split, counted, stops⟩ := parseLoop_splits_span (Nat.le_refl data.length) 0
  change data = encodeDescriptors parsed.descriptors ++ tail at split
  have counted : parsed.consumed = (encodeDescriptors parsed.descriptors).length := counted.trans (Nat.zero_add _)
  rw [counted]
  refine ⟨?_, ?_, ?_⟩
  · have total := congrArg List.length split
    rw [List.length_append] at total
    omega
  · rw [split, List.take_left]
  · rwa [split, List.drop_left]

/-- Settles O27: the loop's split of its span, with the well-formedness of what it emits. -/
theorem descriptorParseIsExact : Obligations.DescriptorParseIsExact := by
  intro data s
  obtain ⟨inside, prefixBytes, stops⟩ := parseDescriptors_consumes_prefix data
  exact ⟨(parseDescriptors data).descriptors, (parseDescriptors data).consumed, rfl, inside, prefixBytes,
    parseDescriptors_wf data, (startsNoDescriptor_drop inside).mp stops⟩

end Sys2Proof.Machine
end

section
/-! PROOFS. The obligations of spec/42_section_decoder.md: the decoder's tests and header fields, its two loops by the
lengths they declare, and the bytes beyond the section, which it never reads. -/

namespace Sys2Proof.Machine

/-! ### What the two decoders put out (spec/41_descriptor_codec.md R150, spec/42_section_decoder.md R170) -/

theorem exec_descParse (data : List Byte) (s : State) :
    exec (.descParse data) s = .next (s.withOutput
      (.parsed (parseDescriptors data).descriptors (parseDescriptors data).consumed (parseEvents data))) := rfl

theorem exec_sectionDecode {buffer : List Byte} {d : Decoded} (decodes : decodeSection buffer = d) (s : State) :
    exec (.sectionDecode buffer) s = .next (s.withOutput (.decoded d.result d.events)) := by
  subst decodes
  rfl

/-- Another table's section fails the second test (spec/42_section_decoder.md R172). -/
theorem decodeSection_of_other_table {buffer : List Byte} (long : 8 ≤ buffer.length)
    (other : byteAt buffer 0 ≠ batTableId) :
    decodeSection buffer = decodeFails (.decTableId (byteAt buffer 0)) := by
  obtain ⟨short, -⟩ | ⟨-, ⟨-, fails⟩ | ⟨bat, -⟩⟩ := decodeSection_cases buffer
  · exact absurd long (Nat.not_le.mpr short)
  · exact fails
  · exact absurd bat other

/-- A buffer that passes the three tests decodes to a section, whose parts the header's bytes and the two loops
determine (spec/42_section_decoder.md R176, R187). -/
theorem decodeSection_of_passes {buffer : List Byte} (long : 8 ≤ buffer.length) (bat : byteAt buffer 0 = batTableId)
    (within : declaredLength buffer ≤ buffer.length) :
    ∃ sec : BATSection,
      decodeSection buffer =
        { result := .ok sec, events := (sectionLoops buffer (declaredLength buffer) within).events } ∧
      sec.bouquetId.toNat = 256 * (byteAt buffer 3).toNat + (byteAt buffer 4).toNat ∧
      sec.versionNumber.toNat = (byteAt buffer 5).toNat / 2 % 32 ∧
      sec.sectionNumber = byteAt buffer 6 ∧ sec.lastSectionNumber = byteAt buffer 7 ∧
      sec.bouquetDescriptors = (sectionLoops buffer (declaredLength buffer) within).bouquetDescriptors ∧
      sec.transportStreams = (sectionLoops buffer (declaredLength buffer) within).transportStreams := by
  obtain ⟨short, -⟩ | ⟨-, ⟨other, -⟩ | ⟨-, ⟨exceeded, -⟩ | ⟨_, decodes⟩⟩⟩ := decodeSection_cases buffer
  · exact absurd long (Nat.not_le.mpr short)
  · exact absurd bat other
  · exact absurd within (Nat.not_le.mpr exceeded)
  · exact decodes

/-! ### The tests and the header (spec/42_section_decoder.md R171 to R176) -/

/-- Settles O28: each answer of the decoder stands with the tests that lead to it, and these exclude the others. -/
theorem sectionDecodeTestsAndHeader : Obligations.SectionDecodeTestsAndHeader := by
  intro buffer s failed
  obtain ⟨short, fails⟩ | ⟨long, ⟨other, fails⟩ | ⟨bat, ⟨exceeded, fails⟩ |
      ⟨within, sec, decodes, id, version, number, last, -, -⟩⟩⟩ := decodeSection_cases buffer
  · exact ⟨fun _ => exec_sectionDecode fails s, fun long => absurd long (Nat.not_le.mpr short)⟩
  · exact ⟨fun short => absurd long (Nat.not_le.mpr short), fun _ =>
      ⟨fun _ => exec_sectionDecode fails s, fun bat => absurd bat other⟩⟩
  · exact ⟨fun short => absurd long (Nat.not_le.mpr short), fun _ => ⟨fun other => absurd bat other, fun _ =>
      ⟨fun _ => exec_sectionDecode fails s, fun within => absurd within (Nat.not_le.mpr exceeded)⟩⟩⟩
  · exact ⟨fun short => absurd long (Nat.not_le.mpr short), fun _ => ⟨fun other => absurd bat other, fun _ =>
      ⟨fun exceeded => absurd within (Nat.not_le.mpr exceeded), fun _ =>
        ⟨sec, _, exec_sectionDecode decodes s, id, version, number, last⟩⟩⟩⟩

/-! ### The two loops by the section's end (spec/42_section_decoder.md R177 to R181) -/

section
variable {buffer : List Byte} {bound p : Nat} (within : bound ≤ buffer.length)
  (hp : p = 10 + twelveBits (byteAt buffer 8) (byteAt buffer 9))

/-- No room for the bouquet loop's header (spec/42_section_decoder.md R177, decision D12). -/
theorem sectionLoops_of_no_first_header (short : bound < 10) :
    sectionLoops buffer bound within =
      { bouquetDescriptors := [], transportStreams := [], events := [.secShort bound] } := by
  rw [sectionLoops_eq within rfl rfl, if_pos short]

include hp

/-- The bouquet loop is parsed within the section (spec/42_section_decoder.md R178). -/
theorem sectionLoops_bouquetDescriptors (header : 10 ≤ bound) :
    (sectionLoops buffer bound within).bouquetDescriptors =
      (parseDescriptors (slice buffer 10 (min p bound))).descriptors := by
  rw [sectionLoops_eq within hp rfl, if_neg (Nat.not_lt.mpr header)]

/-- No room for the second header, which includes every clamped bouquet loop (spec/42_section_decoder.md R180). -/
theorem sectionLoops_of_no_second_header (header : 10 ≤ bound) (short : bound < p + 2) :
    (sectionLoops buffer bound within).transportStreams = [] ∧
      (sectionLoops buffer bound within).events =
        clampEvents p bound ++ parseEvents (slice buffer 10 (min p bound)) ++ [.secShort bound] := by
  rw [sectionLoops_eq within hp rfl, if_neg (Nat.not_lt.mpr header), transportLoop_eq within rfl rfl rfl, if_pos short]
  exact ⟨rfl, rfl⟩

/-- With the second header inside the section no bouquet loop is clamped, and the transport-stream loop is cut at the
section's end (spec/42_section_decoder.md R181, R185). -/
theorem sectionLoops_of_second_header {declaredEnd : Nat} {l : EntryLoop}
    (hend : declaredEnd = p + 2 + twelveBits (byteAt buffer p) (byteAt buffer (p + 1)))
    (hl : l = entryLoop (slice buffer (p + 2) (min declaredEnd bound)).length
      (slice buffer (p + 2) (min declaredEnd bound)) (p + 2)) (header : p + 2 ≤ bound) :
    sectionLoops buffer bound within =
      { bouquetDescriptors := (parseDescriptors (slice buffer 10 p)).descriptors
        transportStreams := l.entries
        events := parseEvents (slice buffer 10 p) ++ clampEvents declaredEnd bound ++ l.events ++
          (if l.stop < min declaredEnd bound then [.tsLoopTrunc l.stop] else []) } := by
  have unclamped : clampEvents p bound = [] := if_neg (by omega)
  have first : ¬ bound < 10 := by omega
  have whole : slice buffer 10 p = slice buffer 10 (min p bound) := by rw [Nat.min_eq_left (by omega)]
  rw [sectionLoops_eq within hp whole, if_neg first, transportLoop_eq within hend rfl hl,
    if_neg (Nat.not_lt.mpr header), unclamped]
  simp only [List.nil_append, List.append_assoc]

end

/-- Settles O29: the parts of a decoded section are those of its loops, with neither header or only the first inside
the section. -/
theorem missingLoopHeadersLeaveLoopsEmpty : Obligations.MissingLoopHeadersLeaveLoopsEmpty := by
  intro buffer s long bat within bound p
  obtain ⟨sec, decodes, -, -, -, -, own, entries⟩ := decodeSection_of_passes long bat within
  refine ⟨sec, _, exec_sectionDecode decodes s, ?_, ?_⟩
  · intro short
    rw [own, entries, sectionLoops_of_no_first_header within short]
    exact ⟨rfl, rfl, rfl⟩
  · intro header
    have bouquet := own.trans (sectionLoops_bouquetDescriptors within (p := p) rfl header)
    refine ⟨_, _, bouquet ▸ exec_descParse _ s, fun short => ?_⟩
    obtain ⟨none, events⟩ := sectionLoops_of_no_second_header within (p := p) rfl header short
    exact ⟨entries.trans none, events⟩

/-- Settles O52: the parts of a decoded section are those of its loops, with both headers inside the section. -/
theorem secondLoopIsDecodedWithinTheSection : Obligations.SecondLoopIsDecodedWithinTheSection := by
  intro buffer s long bat within bound p declaredEnd tsEnd span l header
  have loops := sectionLoops_of_second_header within (p := p) rfl (declaredEnd := declaredEnd) (l := l) rfl rfl header
  obtain ⟨sec, decodes, -, -, -, -, own, entries⟩ := decodeSection_of_passes long bat within
  rw [loops] at decodes own entries
  have bouquet : sec.bouquetDescriptors = (parseDescriptors (slice buffer 10 p)).descriptors := own
  exact ⟨sec, _, _, bouquet ▸ exec_descParse _ s, exec_sectionDecode decodes s, entries⟩

/-! ### One round of the transport-stream loop (spec/42_section_decoder.md R182 to R185) -/

/-- As many rounds as there are bytes are enough, and more change nothing (spec/42_section_decoder.md R197). -/
theorem entryLoop_of_enough_fuel {fuel fuel' : Nat} {rest : List Byte} (enough : rest.length ≤ fuel)
    (enough' : rest.length ≤ fuel') (q : Nat) : entryLoop fuel rest q = entryLoop fuel' rest q := by
  induction fuel generalizing fuel' rest q with
  | zero =>
    obtain rfl : rest = [] := List.eq_nil_of_length_eq_zero (Nat.le_zero.mp enough)
    cases fuel' <;> rfl
  | succ fuel ih =>
    cases fuel' with
    | zero =>
      obtain rfl : rest = [] := List.eq_nil_of_length_eq_zero (Nat.le_zero.mp enough')
      rfl
    | succ fuel' =>
      have later (dl q' : Nat) : entryLoop fuel (rest.drop (tsEntryHeader + dl)) q' =
          entryLoop fuel' (rest.drop (tsEntryHeader + dl)) q' := by
        have consumed : 0 < tsEntryHeader := by decide
        apply ih <;> rw [List.length_drop] <;> omega
      simp only [entryLoop, later]

/-- Settles O30: one round of the loop, run with a round to spare; the fuel changes neither it nor the rest. -/
theorem transportLoopFollowsDeclaredLengths : Obligations.TransportLoopFollowsDeclaredLengths := by
  intro span q dl own later more
  have laterShorter : later.length ≤ span.length := by
    rw [List.length_drop]
    exact Nat.sub_le _ _
  have others : more = entryLoop span.length later (q + 6 + dl) :=
    entryLoop_of_enough_fuel (Nat.le_refl _) laterShorter _
  rw [others, entryLoop_of_enough_fuel (Nat.le_refl span.length) (Nat.le_succ _) q]
  obtain ⟨misfit, stops⟩ | ⟨fits, emits⟩ := entryLoop_cases span.length span q
  · exact ⟨fun fits => absurd misfit (by omega), fun _ => stops⟩
  · exact ⟨fun _ => emits, fun misfit => absurd misfit (by omega)⟩

/-! ### Bytes beyond the section (spec/42_section_decoder.md R175, decision D11) -/

theorem slice_append_left {sec : List Byte} (a : List Byte) (first : Nat) {last : Nat} (inside : last ≤ sec.length) :
    slice (sec ++ a) first last = slice sec first last := by
  rw [slice, slice, List.take_append_of_le_length inside]

section
variable {sec : List Byte} (a : List Byte) {bound : Nat} (inside : bound ≤ sec.length)
  (within : bound ≤ (sec ++ a).length)

theorem transportLoop_append (p : Nat) :
    transportLoop (sec ++ a) bound p within = transportLoop sec bound p inside := by
  rw [transportLoop_eq within rfl rfl rfl, transportLoop_eq inside rfl rfl rfl]
  by_cases short : bound < p + 2
  · rw [if_pos short, if_pos short]
  · rw [byteAt_append_left sec a (by omega), byteAt_append_left sec a (by omega),
      slice_append_left a _ ((Nat.min_le_right _ _).trans inside)]

theorem sectionLoops_append : sectionLoops (sec ++ a) bound within = sectionLoops sec bound inside := by
  rw [sectionLoops_eq within rfl rfl, sectionLoops_eq inside rfl rfl]
  by_cases short : bound < 10
  · rw [if_pos short, if_pos short]
  · rw [byteAt_append_left sec a (by omega), byteAt_append_left sec a (by omega), transportLoop_append a inside,
      slice_append_left a _ ((Nat.min_le_right _ _).trans inside)]

end

/-- The decoder reads no byte beyond the header and the declared section. -/
theorem decodeSection_append {sec : List Byte} (long : 8 ≤ sec.length) (inside : declaredLength sec ≤ sec.length)
    (a : List Byte) : decodeSection (sec ++ a) = decodeSection sec := by
  have header {i : Nat} (hi : i < 8) : byteAt (sec ++ a) i = byteAt sec i :=
    byteAt_append_left sec a (Nat.lt_of_lt_of_le hi long)
  have declared : declaredLength (sec ++ a) = declaredLength sec := declaredLength_append (by omega) a
  have grows : sec.length ≤ (sec ++ a).length := List.length_append ▸ Nat.le_add_right _ _
  by_cases bat : byteAt sec 0 = batTableId
  · obtain ⟨x, decodes, id, version, number, last, own, entries⟩ := decodeSection_of_passes long bat inside
    obtain ⟨x', decodes', id', version', number', last', own', entries'⟩ :=
      decodeSection_of_passes (long.trans grows) ((header (by decide)).trans bat)
        (declared ▸ inside.trans grows)
    simp only [declared, header, sectionLoops_append a inside, Nat.reduceLT]
      at decodes' id' version' number' last' own' entries'
    have same : x' = x := by
      cases x
      cases x'
      simp only [BATSection.mk.injEq]
      exact ⟨BitVec.eq_of_toNat_eq (id'.trans id.symm), BitVec.eq_of_toNat_eq (version'.trans version.symm),
        number'.trans number.symm, last'.trans last.symm, own'.trans own.symm, entries'.trans entries.symm⟩
    rw [decodes, decodes', same]
  · rw [decodeSection_of_other_table long bat,
      decodeSection_of_other_table (long.trans grows) (header (i := 0) (by decide) ▸ bat), header (i := 0) (by decide)]

/-- Settles O31: both buffers are answered as the section they begin with. -/
theorem surplusBytesChangeNothing : Obligations.SurplusBytesChangeNothing := by
  intro sec a b s long inside
  rw [exec_sectionDecode (decodeSection_append long inside a), exec_sectionDecode (decodeSection_append long inside b)]

end Sys2Proof.Machine
end

section
/-! PROOFS. The obligations of spec/43_section_reassembler.md: what a start and a continuation payload leave and report,
the delivery, the section lost when a new one starts, and the blocks that never reach the reassembler. -/

namespace Sys2Proof.Machine

/-! ### Delivery (spec/43_section_reassembler.md R214) -/

theorem exec_secDeliver (buffer : List Byte) (s : State) :
    exec (.secDeliver buffer) s = .next ((deliver buffer s).state.withOutput
      (.delivery (deliver buffer s).delivery (deliver buffer s).events)) := rfl

/-- Settles O25: the decoder's answer, then the operation the store selects, which leaves the reassembler alone. -/
theorem deliverDecodesThenMerges : Obligations.DeliverDecodesThenMerges := by
  intro buffer s
  exact ⟨_, _, _, _, _, exec_sectionDecode rfl s, exec_selectMerge (decodeSection buffer).result.toOption s,
    exec_secDeliver buffer s, deliver_reasm buffer s, deliver_params buffer s, deliver_input buffer s⟩

/-! ### The completion check by the buffer's length (spec/43_section_reassembler.md R203, R212, R213) -/

theorem notFull_of_short {s : State} {expected : Nat} {sb : List Byte} (collecting : s.reasm = .collecting expected sb)
    (short : sb.length < expected) : notFull s := by
  intro expected' sb' collecting'
  obtain ⟨rfl, rfl⟩ : expected = expected' ∧ sb = sb' := by simpa [collecting] using collecting'
  exact short

/-- Nothing to finalise (spec/43_section_reassembler.md R203). -/
theorem completionCheck_of_notFull {s : State} (unfinished : notFull s) :
    completionCheck s = { state := s, delivered := [], events := [] } := by
  obtain ⟨-, nothing⟩ | ⟨expected, sb, collecting, ⟨-, nothing⟩ | ⟨full, -⟩⟩ := completionCheck_cases s
  · exact nothing
  · exact nothing
  · exact absurd (unfinished expected sb collecting) (Nat.not_lt.mpr full)

/-- A full buffer is delivered and the block goes Idle. -/
theorem completionCheck_of_full {s : State} {expected : Nat} {sb : List Byte}
    (collecting : s.reasm = .collecting expected sb) (full : expected ≤ sb.length) :
    completionCheck s =
      { state := (deliver sb s).state.withReasm .idle, delivered := [(deliver sb s).delivery],
        events := (deliver sb s).events } := by
  simp only [completionCheck, collecting, if_pos full, setIdle]

/-- A buffer just written and full is delivered; what it replaced plays no part. -/
theorem completionCheck_withReasm_of_full {expected : Nat} {sb : List Byte} (full : expected ≤ sb.length) (s : State) :
    completionCheck (s.withReasm (.collecting expected sb)) =
      { state := (deliver sb s).state.withReasm .idle, delivered := [(deliver sb s).delivery],
        events := (deliver sb s).events } := by
  rw [completionCheck_of_full rfl full, deliver_withReasm]
  rfl

/-! ### What a start payload begins with (spec/43_section_reassembler.md R204 to R208) -/

/-- The tests on a start payload, by the section bytes at its pointer target (decision D6). -/
theorem startSeed_eq {payload sec : List Byte} (target : payload.drop (1 + (byteAt payload 0).toNat) = sec) :
    startSeed payload =
      if sec.length = 0 then .error (.startPtrOverrun (byteAt payload 0) payload.length)
      else if byteAt sec 0 ≠ batTableId then .error (.startNotBat (byteAt sec 0))
      else if short : sec.length < 3 then .error (.startHdrShort sec.length)
      else .ok { bytes := sec, header := Nat.not_lt.mp short } := by
  subst target
  simp only [List.length_drop, byteAt_drop, Nat.add_zero, Nat.sub_eq_zero_iff_le]
  obtain ⟨overrun, seeds⟩ | ⟨inside, ⟨other, seeds⟩ | ⟨tableId, ⟨short, seeds⟩ | ⟨header, _, seeds⟩⟩⟩ :=
    startSeed_cases payload
  · rw [seeds, if_pos overrun]
  · rw [seeds, if_neg (Nat.not_le.mpr inside), if_pos other]
  · rw [seeds, if_neg (Nat.not_le.mpr inside), if_neg (not_not_intro tableId), dif_pos short]
  · rw [seeds, if_neg (Nat.not_le.mpr inside), if_neg (not_not_intro tableId), dif_neg (Nat.not_lt.mpr header)]

/-- Why a start payload starts no section, when its section bytes are fewer than three or of another table. -/
theorem startSeed_of_no_section {payload sec : List Byte}
    (target : payload.drop (1 + (byteAt payload 0).toNat) = sec)
    (noSection : sec.length < 3 ∨ byteAt sec 0 ≠ batTableId) :
    startSeed payload = .error
      (if sec.length = 0 then .startPtrOverrun (byteAt payload 0) payload.length
        else if byteAt sec 0 ≠ batTableId then .startNotBat (byteAt sec 0)
        else .startHdrShort sec.length) := by
  rw [startSeed_eq target]
  by_cases empty : sec.length = 0
  · rw [if_pos empty, if_pos empty]
  by_cases other : byteAt sec 0 ≠ batTableId
  · rw [if_neg empty, if_neg empty, if_pos other, if_pos other]
  · rw [if_neg empty, if_neg empty, if_neg other, if_neg other, dif_pos (noSection.resolve_right other)]

/-- A start payload with a BAT section's header at its pointer target seeds the buffer with all bytes from there on. -/
theorem startSeed_of_section {payload sec : List Byte} (target : payload.drop (1 + (byteAt payload 0).toNat) = sec)
    (header : 3 ≤ sec.length) (tableId : byteAt sec 0 = batTableId) :
    startSeed payload = .ok { bytes := sec, header := header } := by
  rw [startSeed_eq target, if_neg (by omega), if_neg (not_not_intro tableId), dif_neg (Nat.not_lt.mpr header)]

/-! ### What the reassembler leaves and reports -/

theorem droppedEvents_eq (s : State) : droppedEvents s = incompleteEvents s.reasm := by
  unfold droppedEvents
  cases s.reasm <;> rfl

theorem seedBuffer_eq (seed : Seed) (s : State) :
    seedBuffer seed s = s.withReasm (.collecting (declaredLength seed.bytes) seed.bytes) := by
  rw [seedBuffer, expectedLengthOf_eq]

theorem reassemble_of_error {payload : List Byte} {ev : Event} (fails : startSeed payload = .error ev) (s : State) :
    reassemble payload true s = skipStart ev s := by
  simp [reassemble, startPayload, fails]

theorem reassemble_of_seed {payload : List Byte} {seed : Seed} (seeds : startSeed payload = .ok seed) (s : State) :
    reassemble payload true s = beginSection seed s := by
  simp [reassemble, startPayload, seeds]

section
variable {payload : List Byte} {s : State} (unfinished : notFull s)
include unfinished

/-- A start payload that starts no section drops what was being collected (spec/43_section_reassembler.md R217). -/
theorem reassemble_start_skips {ev : Event} (fails : startSeed payload = .error ev) :
    reassemble payload true s =
      { state := s.withReasm .idle
        report := { action := .skip ev, delivered := [], events := ev :: incompleteEvents s.reasm } } := by
  rw [reassemble_of_error fails, skipStart, completionCheck_of_notFull unfinished, droppedEvents_eq]
  rfl

/-- A start payload with part of a section: its bytes alone are collected (spec/43_section_reassembler.md R208,
R213). -/
theorem reassemble_start_collects {seed : Seed} (seeds : startSeed payload = .ok seed)
    (short : seed.bytes.length < declaredLength seed.bytes) :
    reassemble payload true s =
      { state := s.withReasm (.collecting (declaredLength seed.bytes) seed.bytes)
        report := { action := .begin, delivered := [], events := incompleteEvents s.reasm } } := by
  rw [reassemble_of_seed seeds, beginSection, completionCheck_of_notFull unfinished, droppedEvents_eq, seedBuffer_eq,
    completionCheck_short (State.withReasm_reasm _ _) short, List.nil_append, List.append_nil]
  rfl

/-- A start payload with a whole section: it is delivered at once (spec/43_section_reassembler.md R212, decision
D8). -/
theorem reassemble_start_delivers {seed : Seed} (seeds : startSeed payload = .ok seed)
    (whole : declaredLength seed.bytes ≤ seed.bytes.length) :
    reassemble payload true s =
      { state := (deliver seed.bytes s).state.withReasm .idle
        report :=
          { action := .begin, delivered := [(deliver seed.bytes s).delivery],
            events := incompleteEvents s.reasm ++ (deliver seed.bytes s).events } } := by
  rw [reassemble_of_seed seeds, beginSection, completionCheck_of_notFull unfinished, droppedEvents_eq, seedBuffer_eq,
    completionCheck_withReasm_of_full whole]
  rfl

end

section
variable {expected : Nat} {sb : List Byte} {s : State} (collecting : s.reasm = .collecting expected sb)
include collecting

/-- A start payload on a full buffer: its delivery, then what the payload does from Idle
(spec/43_section_reassembler.md R203, R224). -/
theorem reassemble_start_of_full (full : expected ≤ sb.length) (payload : List Byte) :
    let fromIdle := reassemble payload true ((deliver sb s).state.withReasm .idle)
    reassemble payload true s =
      { state := fromIdle.state
        report :=
          { action := fromIdle.report.action, delivered := (deliver sb s).delivery :: fromIdle.report.delivered,
            events := (deliver sb s).events ++ fromIdle.report.events } } := by
  have first := completionCheck_of_full collecting full
  have second := completionCheck_idle (State.withReasm_reasm (deliver sb s).state .idle)
  cases seeds : startSeed payload with
  | error ev => simp [reassemble_of_error seeds, skipStart, first, second]
  | ok seed => simp [reassemble_of_seed seeds, beginSection, first, second]

theorem reassemble_continuation (payload : List Byte) :
    reassemble payload false s = appendPayload expected sb payload s := by
  simp [reassemble, contPayload, collecting]

end

theorem reassemble_continuation_idle {s : State} (idle : s.reasm = .idle) (payload : List Byte) :
    reassemble payload false s = ignorePayload s := by
  simp [reassemble, contPayload, idle]

/-! ### From an invocation of the reassembler to what an operation answers -/

/-- SEC.SKIP puts out what the reassembler makes of its payload. -/
theorem exec_secSkip_of_reassemble {payload : List Byte} {s : State} {v : Invocation}
    (h : reassemble payload true s = v) :
    exec (.secSkip payload) s = .next (v.state.withOutput (.reasm v.report)) :=
  h ▸ execSecSkip_eq payload s

/-- SEC.BEGIN puts out what the reassembler makes of the payload its operands are written as. -/
theorem exec_secBegin_of_reassemble {ptr : Byte} {pre sec : List Byte} {s : State} {v : Invocation}
    (h : reassemble (ptr :: (pre ++ sec)) true s = v) :
    exec (.secBegin ptr pre sec) s = .next (v.state.withOutput (.reasm v.report)) :=
  h ▸ execSecBegin_eq ptr pre sec s

/-- A packet with a payload puts out what the reassembler makes of it, as a step result
(spec/45_block_operations.md R286). -/
theorem passPayload_of_reassemble {payload : List Byte} {isStart : Bool} {s : State} {v : Invocation}
    (h : reassemble payload isStart s = v) :
    passPayload payload isStart s = .next (v.state.withOutput (payloadResult payload.length isStart v.report)) :=
  h ▸ rfl

/-! ### Start payloads (spec/43_section_reassembler.md R216, R217) -/

/-- A start payload written from a pointer, stuffing and a BAT section selects SEC.BEGIN
(spec/30_encoding.md R99). -/
theorem decodePayload_begin (collecting : Bool) {ptr : Byte} {pre sec : List Byte} (stuffed : pre.length = ptr.toNat)
    (tableId : byteAt sec 0 = batTableId) (header : 3 ≤ sec.length) :
    decodePayload collecting true (ptr :: (pre ++ sec)) = .secBegin ptr pre sec := by
  refine decodeStartPayload_begin stuffed header ?_
  match sec, header with
  | t :: _, _ => exact congrArg some tableId

/-- Settles O18: nothing is finalised, and the seed stays short. -/
theorem beginCollectsAShortSeed : Obligations.BeginCollectsAShortSeed := by
  intro ptr pre sec s unfinished stuffed (tableId : byteAt sec 0 = batTableId) header short
  exact ⟨decodePayload_begin _ stuffed tableId header, exec_secBegin_of_reassemble
    (reassemble_start_collects unfinished (startSeed_written stuffed tableId header) short)⟩

/-- Settles O19: nothing is finalised, and the seed is a whole section. -/
theorem beginDeliversAWholeSeed : Obligations.BeginDeliversAWholeSeed := by
  intro ptr pre sec s unfinished stuffed (tableId : byteAt sec 0 = batTableId) header whole
  exact ⟨decodePayload_begin _ stuffed tableId header, _, _, _, exec_secDeliver sec s, exec_secBegin_of_reassemble
    (reassemble_start_delivers unfinished (startSeed_written stuffed tableId header) whole)⟩

/-- Settles O20: the second test on the payload fails. -/
theorem startOfAnotherTableIsSkipped : Obligations.StartOfAnotherTableIsSkipped := by
  intro payload s unfinished inside (other : byteAt payload _ ≠ batTableId)
  refine exec_secSkip_of_reassemble (reassemble_start_skips unfinished ?_)
  simp [startSeed_eq rfl, byteAt_drop, Nat.sub_eq_zero_iff_le, Nat.not_le.mpr inside, other]

/-- Settles O21: the first or the third test on the payload fails. -/
theorem startTooShortIsSkipped : Obligations.StartTooShortIsSkipped := by
  intro payload s unfinished _
  dsimp only
  refine ⟨fun overrun => ?_, fun inside (tableId : byteAt payload _ = batTableId) short => ?_⟩
  · refine exec_secSkip_of_reassemble (reassemble_start_skips unfinished ?_)
    simp [startSeed_eq rfl, overrun]
  · refine exec_secSkip_of_reassemble (reassemble_start_skips unfinished ?_)
    have cut : payload.length - (1 + (byteAt payload 0).toNat) < 3 := by omega
    simp [startSeed_eq rfl, byteAt_drop, Nat.sub_eq_zero_iff_le, Nat.not_le.mpr inside, tableId, cut]

/-- Settles O22: what a start payload selects does not depend on `fsm`, and the delivery leaves Idle. -/
theorem startFinalisesAFullBufferFirst : Obligations.StartFinalisesAFullBufferFirst := by
  intro payload sb expected s collecting full
  have selected := exec_decodePayload true payload s
  rw [reassemble_start_of_full collecting full] at selected
  exact ⟨_, _, _, _, _, exec_secDeliver sb s,
    exec_decodePayload true payload ((deliver sb s).state.withReasm .idle), selected⟩

/-! ### Continuation payloads (spec/43_section_reassembler.md R218, R219) -/

/-- Settles O23, by the length of the buffer after the append. -/
theorem appendExtendsOrDelivers : Obligations.AppendExtendsOrDelivers := by
  intro payload sb expected s collecting
  have appends : exec (.secAppend payload) s = finishReasm (appendPayload expected sb payload s) :=
    (execSecAppend_eq payload s).trans (congrArg finishReasm (reassemble_continuation collecting payload))
  rw [appends, appendPayload, ← List.length_append]
  refine ⟨fun short => ?_, fun full => ⟨_, _, _, exec_secDeliver (sb ++ payload) s, ?_⟩⟩
  · rw [completionCheck_short (State.withReasm_reasm _ _) short]
    rfl
  · rw [completionCheck_withReasm_of_full full]
    rfl

/-- Settles O24: the continuation branch in Idle. -/
theorem continuationWhileIdleIsIgnored : Obligations.ContinuationWhileIdleIsIgnored :=
  fun payload s idle =>
    (execSecIgnore_eq payload s).trans (congrArg finishReasm (reassemble_continuation_idle idle payload))

/-! ### The section lost at a start packet (spec/43_section_reassembler.md R220, R222) -/

/-- Both classes of start packet hand their payload on (spec/40_packet_demux.md R138, R140). -/
theorem exec_startPacket {bits : IgnoredBits} {i : Instr} {payload : List Byte}
    (packet : (payload.length = 184 ∧ i = .pktStartAfc01 bits payload) ∨
      ∃ (afLen : Byte) (rest : List Byte), rest.length = 183 ∧ afLen.toNat ≤ 182 ∧
        payload = rest.drop afLen.toNat ∧ i = .pktStartAfc11 bits afLen rest) (s : State) :
    exec i s = passPayload payload true s := by
  obtain ⟨-, rfl⟩ | ⟨afLen, rest, -, inside, rfl, rfl⟩ := packet
  · rfl
  · obtain ⟨overrun, -⟩ | ⟨-, passes⟩ := passAfterField_cases afLen rest true s
    · omega
    · exact passes

/-- Settles O26: a short buffer is not finalised, so all that is delivered or collected comes from the new payload. -/
theorem startDropsTheUnfinishedSection : Obligations.StartDropsTheUnfinishedSection := by
  intro bits i payload sb expected s packet collecting short sec dropped ev
  have unfinished : notFull s := notFull_of_short collecting short
  have reported : incompleteEvents s.reasm = [dropped] := by rw [collecting]; rfl
  rw [exec_startPacket packet s]
  refine ⟨fun noSection => ?_, fun header (tableId : byteAt sec 0 = batTableId) => ?_⟩
  · have skips := reassemble_start_skips unfinished (startSeed_of_no_section rfl noSection)
    rw [reported] at skips
    exact passPayload_of_reassemble skips
  have seeds := startSeed_of_section rfl header tableId
  refine ⟨fun part => ?_, fun whole => ⟨_, _, _, exec_secDeliver sec s, ?_⟩⟩
  · have collects := reassemble_start_collects unfinished seeds part
    rw [reported] at collects
    exact passPayload_of_reassemble collects
  · have delivers := reassemble_start_delivers unfinished seeds whole
    rw [reported] at delivers
    exact passPayload_of_reassemble delivers

/-! ### Blocks without payload (spec/43_section_reassembler.md R225) -/

/-- A block hands a payload on only when its length, sync byte, PID, adaptation-field-control and adaptation field
allow it (spec/40_packet_demux.md R131). -/
theorem demux_pass_tests {block payload : List Byte} {targetPid : Half} {isStart : Bool}
    (passes : demux block targetPid = .pass payload isStart) :
    block.length = 188 ∧ byteAt block 0 = 0x47#8 ∧
      256 * ((byteAt block 1).toNat % 32) + (byteAt block 2).toNat = targetPid.toNat ∧
      (byteAt block 3).toNat / 16 % 2 = 1 ∧
      ((byteAt block 3).toNat / 16 % 4 = 3 → (byteAt block 4).toNat ≤ 182) := by
  obtain ⟨-, drops⟩ | ⟨full, ⟨-, drops⟩ | ⟨sync, ⟨-, drops⟩ | ⟨own, tests⟩⟩⟩ := demux_cases block targetPid
  · simp [drops] at passes
  · simp [drops] at passes
  · simp [drops] at passes
  have pid := (pidOf_toNat block full).symm.trans ((setWidth_eq_iff_toNat _ _).mp own)
  have afc := afcOf_toNat block full
  obtain ⟨-, drops⟩ | ⟨afc01, -⟩ | ⟨-, -, drops⟩ | ⟨afc11, inside, -⟩ := tests
  · simp [drops] at passes
  · rw [afc01, BitVec.toNat_ofNat] at afc
    exact ⟨full, sync, pid, by omega, by omega⟩
  · simp [drops] at passes
  · rw [afc11, BitVec.toNat_ofNat] at afc
    exact ⟨full, sync, pid, by omega, fun _ => inside⟩

/-- Settles O15: the block fails a test of the demultiplexer, so the step drops it. -/
theorem blocksWithoutPayloadDoNotDisturb : Obligations.BlocksWithoutPayloadDoNotDisturb := by
  intro block rest s presented noPayload
  rw [step_of_input_cons presented, decodeOp_pkt]
  rw [← State.withInput_params s rest, ← pktDoesWhatItsClassDoes block (s.withInput rest)]
  cases demuxed : demux block (s.withInput rest).params.targetPid with
  | drop ev => exact ⟨ev, exec_pkt_of_drop demuxed⟩
  | pass payload isStart =>
    obtain ⟨full, sync, own, afc, field⟩ := demux_pass_tests demuxed
    obtain badLength | badSync | other | evenAfc | ⟨afc11, overrun⟩ := noPayload
    · exact absurd full badLength
    · exact absurd sync badSync
    · exact absurd own other
    · omega
    · exact absurd (field afc11) (Nat.not_le.mpr overrun)

end Sys2Proof.Machine
end

section
/-! PROOFS. The obligations of spec/44_bouquet_aggregator.md: the record each MERGE operation makes, what it leaves
alone, the merging of transport-stream entries, and what repeated and paired sections do to a record. -/

namespace Sys2Proof.Machine

/-! ### Capacities as the statements write them (R255) -/

theorem exceeds_eq_false_iff (count : Nat) (cap : Option Nat) : exceeds count cap = false ↔ admits cap count := by
  cases cap <;> simp [exceeds, admits]

theorem recordExceeds_eq_false_iff (p : Params) (r : BouquetRecord) :
    recordExceeds p r = false ↔
      admits p.capTs r.transportStreams.length ∧ admits p.capDescBytes (recordDescriptorBytes r) := by
  rw [recordExceeds, Bool.or_eq_false_iff, exceeds_eq_false_iff, exceeds_eq_false_iff]

theorem createOverflows_eq_false_iff (sec : BATSection) (s : State) :
    createOverflows sec s = false ↔ createFits s (createdRecord sec) := by
  rw [createOverflows, Bool.or_eq_false_iff, exceeds_eq_false_iff, recordExceeds_eq_false_iff]
  rfl

theorem mergeOverflows_eq_false_iff (r : BouquetRecord) (sec : BATSection) (s : State) :
    mergeOverflows r sec s = false ↔ replaceFits s (mergedRecord r sec) :=
  recordExceeds_eq_false_iff _ _

/-- An unbounded capacity admits every count (spec/00_scope.md R7). -/
theorem admits_of_none {cap : Option Nat} (unbounded : cap = none) (count : Nat) : admits cap count := by
  simp [admits, unbounded]

/-! ### The records as the statements write them (R244, R247, R252) -/

theorem markSeen_eq_or_twoPow (seen : BitVec 256) (n : Byte) :
    markSeen seen n = seen ||| BitVec.twoPow 256 n.toNat := by
  rw [markSeen, BitVec.twoPow_eq]

theorem markSeen_zero (n : Byte) : markSeen 0#256 n = BitVec.twoPow 256 n.toNat := by
  rw [markSeen_eq_or_twoPow, BitVec.zero_or]

/-- One seen bit is every bit asked for only when one bit is asked for. -/
theorem completeFlag_markSeen_zero {n last : Byte} (within : n.toNat ≤ last.toNat) :
    completeFlag (markSeen 0#256 n) last = decide (last = 0#8) := by
  rw [Bool.eq_iff_iff, completeFlag_iff, decide_eq_true_iff, BitVec.toNat_eq, BitVec.toNat_ofNat]
  simp only [getLsbD_markSeen, BitVec.getLsbD_zero, Bool.false_or, decide_eq_true_eq]
  constructor
  · intro all
    by_contra more
    have first : n.toNat = 0 := all 0 (by omega)
    have second : n.toNat = 1 := all 1 (by omega)
    omega
  · intro single i inRange
    omega

theorem createdRecord_eq {sec : BATSection} (within : sec.sectionNumber.toNat ≤ sec.lastSectionNumber.toNat) :
    createdRecord sec = recordCreatedBy sec := by
  rw [createdRecord, completeFlag_markSeen_zero within, markSeen_zero]
  rfl

/-- Completeness after one more section is asked of the bits seen before and of its own. -/
theorem completeFlag_markSeen (seen : BitVec 256) (n last : Byte) :
    completeFlag (markSeen seen n) last =
      decide (∀ i < last.toNat + 1, seen.getLsbD i = true ∨ i = n.toNat) := by
  rw [Bool.eq_iff_iff, completeFlag_iff, decide_eq_true_iff]
  simp only [getLsbD_markSeen, Bool.or_eq_true, decide_eq_true_eq, eq_comm (a := n.toNat)]

theorem mergedRecord_eq (r : BouquetRecord) (sec : BATSection) : mergedRecord r sec = recordMergedWith r sec := by
  rw [mergedRecord, completeFlag_markSeen, markSeen_eq_or_twoPow]
  rfl

/-! ### The effect of a section, from the tests that select it (R262) -/

theorem governingLast_of_absent {sec : BATSection} {s : State} (fresh : s.store.lookup sec.bouquetId = none) :
    governingLast sec s = sec.lastSectionNumber := by
  simp [governingLast, fresh]

theorem governingLast_of_found {sec : BATSection} {r : BouquetRecord} {s : State}
    (found : s.store.lookup sec.bouquetId = some r) : governingLast sec s = r.lastSectionNumber := by
  simp [governingLast, found]

theorem merge_of_range {sec : BATSection} {s : State}
    (above : (governingLast sec s).toNat < sec.sectionNumber.toNat) :
    merge (some sec) s = mergeRangeEffect sec s := if_pos above

/-- A section of a bouquet without a record, by its capacity test. -/
theorem merge_of_absent {sec : BATSection} {s : State} (fresh : s.store.lookup sec.bouquetId = none)
    (within : sec.sectionNumber.toNat ≤ sec.lastSectionNumber.toNat) :
    merge (some sec) s = if createOverflows sec s then mergeOvfEffect sec s else mergeCreateEffect sec s := by
  simp [merge, governingLast_of_absent fresh, Nat.not_lt.mpr within, fresh]

/-- A section of a bouquet with a record, by its duplicate test and its capacity test. -/
theorem merge_of_found {sec : BATSection} {r : BouquetRecord} {s : State}
    (found : s.store.lookup sec.bouquetId = some r)
    (within : sec.sectionNumber.toNat ≤ r.lastSectionNumber.toNat) :
    merge (some sec) s =
      if seenBit r.seenSections sec.sectionNumber then mergeDupEffect sec r s
      else if mergeOverflows r sec s then mergeOvfEffect sec s else mergeNewEffect sec r s := by
  simp [merge, governingLast_of_found found, Nat.not_lt.mpr within, found]

theorem merge_of_createOverflows {sec : BATSection} {s : State} (fresh : s.store.lookup sec.bouquetId = none)
    (within : sec.sectionNumber.toNat ≤ sec.lastSectionNumber.toNat) (full : createOverflows sec s = true) :
    merge (some sec) s = mergeOvfEffect sec s := by
  rw [merge_of_absent fresh within, if_pos full]

theorem merge_of_mergeOverflows {sec : BATSection} {r : BouquetRecord} {s : State}
    (found : s.store.lookup sec.bouquetId = some r)
    (within : sec.sectionNumber.toNat ≤ r.lastSectionNumber.toNat)
    (unseen : seenBit r.seenSections sec.sectionNumber = false) (full : mergeOverflows r sec s = true) :
    merge (some sec) s = mergeOvfEffect sec s := by
  rw [merge_of_found found within, unseen, if_neg Bool.false_ne_true, if_pos full]

theorem merge_of_dup {sec : BATSection} {r : BouquetRecord} {s : State}
    (found : s.store.lookup sec.bouquetId = some r)
    (within : sec.sectionNumber.toNat ≤ r.lastSectionNumber.toNat)
    (seen : seenBit r.seenSections sec.sectionNumber = true) :
    merge (some sec) s = mergeDupEffect sec r s := by
  rw [merge_of_found found within, if_pos seen]

/-! ### One section's operation (R241 to R260) -/

/-- Settles O32: the operation's effect is the state itself. -/
theorem absentSectionChangesNothing : Obligations.AbsentSectionChangesNothing := fun _ => rfl

/-- Settles O33: the tests select the creating effect, and its record is the one written out. -/
theorem createMakesTheRecord : Obligations.CreateMakesTheRecord := by
  intro sec s fresh within fits
  rw [← createdRecord_eq within] at fits
  have room : createOverflows sec s = false := (createOverflows_eq_false_iff sec s).mpr fits
  have creates : merge (some sec) s = mergeCreateEffect sec s := by simp [merge_of_absent fresh within, room]
  refine (execMergeCreate_eq sec s).trans ?_
  rw [creates, mergeCreateEffect, createdRecord_eq within]
  rfl

/-- Settles O34: the tests select the merging effect, and its record is the one written out. -/
theorem newSectionIsMerged : Obligations.NewSectionIsMerged := by
  intro sec r s found within (unseen : seenBit r.seenSections sec.sectionNumber = false) fits
  rw [← mergedRecord_eq] at fits ⊢
  have room : mergeOverflows r sec s = false := (mergeOverflows_eq_false_iff r sec s).mpr fits
  have merges : merge (some sec) s = mergeNewEffect sec r s := by simp [merge_of_found found within, unseen, room]
  refine (execMergeNew_eq sec s).trans ?_
  rw [merges]
  rfl

/-- Settles O35: the seen bit selects the duplicate effect before any capacity is looked at. -/
theorem duplicateSectionChangesNothing : Obligations.DuplicateSectionChangesNothing := by
  intro sec r s found within seen
  refine (execMergeDup_eq sec s).trans ?_
  rw [merge_of_dup found within seen]
  rfl

/-- Settles O36: with or without a record, `last` is the governing last number. -/
theorem outOfRangeSectionIsIgnored : Obligations.OutOfRangeSectionIsIgnored := by
  intro sec last s governs above
  have governing : governingLast sec s = last := by
    obtain ⟨fresh, rfl⟩ | ⟨r, found, rfl⟩ := governs
    · exact governingLast_of_absent fresh
    · exact governingLast_of_found found
  refine (execMergeRange_eq sec s).trans ?_
  rw [merge_of_range (governing.symm ▸ above), mergeRangeEffect, governing]
  rfl

/-- Settles O37: the capacity test that fails is the creating one without a record, the merging one with it. -/
theorem overflowingMergeIsRefusedWhole : Obligations.OverflowingMergeIsRefusedWhole := by
  intro sec s refused
  have overflows : merge (some sec) s = mergeOvfEffect sec s := by
    obtain ⟨fresh, within, full⟩ | ⟨r, found, within, unseen, full⟩ := refused
    · rw [← createdRecord_eq within, ← createOverflows_eq_false_iff, Bool.not_eq_false] at full
      exact merge_of_createOverflows fresh within full
    · rw [← mergedRecord_eq, ← mergeOverflows_eq_false_iff, Bool.not_eq_false] at full
      exact merge_of_mergeOverflows found within unseen full
  refine (execMergeOvf_eq sec s).trans ?_
  rw [overflows]
  rfl

/-! ### Merging entries: what stands first for an id (R250, R251) -/

theorem firstEntry_cons (id : Half) (e : TransportStream) (rest : List TransportStream) :
    firstEntry id (e :: rest) = if e.transportStreamId = id then some e else firstEntry id rest := by
  by_cases own : e.transportStreamId = id <;> simp [firstEntry, own]

theorem descriptorsFor_cons (id : Half) (t : TransportStream) (rest : List TransportStream) :
    descriptorsFor id (t :: rest) =
      if t.transportStreamId = id then t.descriptors ++ descriptorsFor id rest else descriptorsFor id rest := by
  by_cases own : t.transportStreamId = id <;> simp [descriptorsFor, own]

theorem mergeEntries_cons (present : List TransportStream) (t : TransportStream) (rest : List TransportStream) :
    mergeEntries present (t :: rest) = mergeEntries (mergeEntry present t) rest := rfl

theorem firstEntry_mergeEntry_other {id : Half} {t : TransportStream} (other : t.transportStreamId ≠ id)
    (present : List TransportStream) : firstEntry id (mergeEntry present t) = firstEntry id present := by
  induction present with
  | nil => simp [mergeEntry, firstEntry_cons, other]
  | cons x rest ih =>
    unfold mergeEntry
    split
    next same => simp [firstEntry_cons, same, other]
    next => rw [firstEntry_cons, firstEntry_cons, ih]

theorem firstEntry_mergeEntry_present {present : List TransportStream} {e t : TransportStream}
    (found : firstEntry t.transportStreamId present = some e) :
    firstEntry t.transportStreamId (mergeEntry present t) =
      some { e with descriptors := e.descriptors ++ t.descriptors } := by
  induction present with
  | nil => simp [firstEntry] at found
  | cons x rest ih =>
    rw [firstEntry_cons] at found
    unfold mergeEntry
    split at found
    next own =>
      obtain rfl : x = e := by simpa using found
      simp [firstEntry_cons, own]
    next other => simp [firstEntry_cons, other, ih found]

theorem firstEntry_mergeEntry_absent {present : List TransportStream} {t : TransportStream}
    (absent : firstEntry t.transportStreamId present = none) :
    firstEntry t.transportStreamId (mergeEntry present t) = some t := by
  induction present with
  | nil => simp [mergeEntry, firstEntry_cons]
  | cons x rest ih =>
    rw [firstEntry_cons] at absent
    unfold mergeEntry
    split at absent
    next => simp at absent
    next other => simp [firstEntry_cons, other, ih absent]

/-- The first entry of an id present gains the new descriptors of that id and keeps its other fields. -/
theorem firstEntry_mergeEntries_present {id : Half} {present : List TransportStream} {e : TransportStream}
    (found : firstEntry id present = some e) (new : List TransportStream) :
    firstEntry id (mergeEntries present new) =
      some { e with descriptors := e.descriptors ++ descriptorsFor id new } := by
  induction new generalizing present e with
  | nil => simpa [mergeEntries, descriptorsFor] using found
  | cons t rest ih =>
    rw [mergeEntries_cons, descriptorsFor_cons]
    by_cases own : t.transportStreamId = id
    · subst own
      rw [ih (firstEntry_mergeEntry_present found), if_pos rfl, List.append_assoc]
    · rw [ih ((firstEntry_mergeEntry_other own present).trans found), if_neg own]

/-- The first new entry of an id not present is the one added, with all the new descriptors of that id. -/
theorem firstEntry_mergeEntries_absent {id : Half} {present : List TransportStream}
    (absent : firstEntry id present = none) (new : List TransportStream) :
    firstEntry id (mergeEntries present new) =
      (firstEntry id new).map fun t => { t with descriptors := descriptorsFor id new } := by
  induction new generalizing present with
  | nil => simpa [mergeEntries, firstEntry] using absent
  | cons t rest ih =>
    rw [mergeEntries_cons, descriptorsFor_cons, firstEntry_cons]
    by_cases own : t.transportStreamId = id
    · subst own
      rw [firstEntry_mergeEntries_present (firstEntry_mergeEntry_absent absent), if_pos rfl, if_pos rfl]
      rfl
    · rw [ih ((firstEntry_mergeEntry_other own present).trans absent), if_neg own, if_neg own]

/-! ### Merging entries: who is left as it was (R250, decision D18) -/

/-- Before place `n` of a list there is an entry with `e`'s id. -/
def NotFirstOfItsId (l : List TransportStream) (n : Nat) (e : TransportStream) : Prop :=
  ∃ m < n, ∃ e₀, l[m]? = some e₀ ∧ e₀.transportStreamId = e.transportStreamId

theorem NotFirstOfItsId.of_extends {l l' : List TransportStream} {n : Nat} {e : TransportStream}
    (h : NotFirstOfItsId l n e) (grows : EntriesExtend l l') : NotFirstOfItsId l' n e := by
  obtain ⟨m, before, e₀, first, same⟩ := h
  obtain ⟨e₀', first', id, -, -⟩ := grows m e₀ first
  exact ⟨m, before, e₀', first', id.trans same⟩

/-- An entry after the head is not the first of its id only when the head has that id or an earlier one of the rest. -/
theorem notFirstOfItsId_cons_succ {x e : TransportStream} {rest : List TransportStream} {n : Nat}
    (h : NotFirstOfItsId (x :: rest) (n + 1) e) :
    x.transportStreamId = e.transportStreamId ∨ NotFirstOfItsId rest n e := by
  obtain ⟨m, before, e₀, first, same⟩ := h
  cases m with
  | zero =>
    obtain rfl : x = e₀ := by simpa using first
    exact .inl same
  | succ m => exact .inr ⟨m, by omega, e₀, by simpa using first, same⟩

theorem mergeEntry_getElem?_of_other {l : List TransportStream} {n : Nat} {e t : TransportStream}
    (here : l[n]? = some e) (other : e.transportStreamId ≠ t.transportStreamId) :
    (mergeEntry l t)[n]? = some e := by
  induction l generalizing n with
  | nil => simp at here
  | cons x rest ih =>
    unfold mergeEntry
    cases n with
    | zero =>
      obtain rfl : x = e := by simpa using here
      simp [other]
    | succ n =>
      split
      · simpa using here
      · exact ih (by simpa using here)

theorem mergeEntry_getElem?_of_notFirst {l : List TransportStream} {n : Nat} {e : TransportStream}
    (here : l[n]? = some e) (later : NotFirstOfItsId l n e) (t : TransportStream) :
    (mergeEntry l t)[n]? = some e := by
  induction l generalizing n with
  | nil => simp at here
  | cons x rest ih =>
    cases n with
    | zero =>
      obtain ⟨m, before, -⟩ := later
      exact absurd before (Nat.not_lt_zero m)
    | succ n =>
      have here : rest[n]? = some e := by simpa using here
      unfold mergeEntry
      split
      next => exact here
      next other =>
        obtain head | later := notFirstOfItsId_cons_succ later
        · exact mergeEntry_getElem?_of_other here (head ▸ other)
        · exact ih here later

theorem mergeEntries_getElem?_of_notFirst {present : List TransportStream} {n : Nat} {e : TransportStream}
    (here : present[n]? = some e) (later : NotFirstOfItsId present n e) (new : List TransportStream) :
    (mergeEntries present new)[n]? = some e := by
  induction new generalizing present with
  | nil => exact here
  | cons t rest ih =>
    exact ih (mergeEntry_getElem?_of_notFirst here later t) (later.of_extends (mergeEntry_extends present t))

/-! ### Merging entries: the order of the ids (R251, R268) -/

theorem map_id_mergeEntry (present : List TransportStream) (t : TransportStream) :
    (mergeEntry present t).map (fun e => e.transportStreamId) =
      if t.transportStreamId ∈ present.map fun e => e.transportStreamId
      then present.map fun e => e.transportStreamId
      else (present.map fun e => e.transportStreamId) ++ [t.transportStreamId] := by
  induction present with
  | nil => simp [mergeEntry]
  | cons x rest ih =>
    unfold mergeEntry
    by_cases own : x.transportStreamId = t.transportStreamId
    · simp [own]
    · simp only [own, Ne.symm own, if_false, List.map_cons, ih, List.mem_cons, false_or]
      split <;> rfl

theorem map_id_mergeEntries (present new : List TransportStream) :
    (mergeEntries present new).map (fun t => t.transportStreamId) =
      present.map (fun t => t.transportStreamId) ++ newIds (present.map fun t => t.transportStreamId) new := by
  induction new generalizing present with
  | nil => simp [mergeEntries, newIds]
  | cons t rest ih =>
    rw [mergeEntries_cons, ih, map_id_mergeEntry, newIds]
    split
    · rfl
    · rw [List.append_assoc, List.singleton_append]

/-- Settles O38, by an induction over the new entries for each part. -/
theorem entriesMergeByTransportStreamId : Obligations.EntriesMergeByTransportStreamId := by
  intro present new
  refine ⟨fun id => ?_, fun n e here => ?_, map_id_mergeEntries present new⟩
  · cases first : firstEntry id present with
    | some e => exact firstEntry_mergeEntries_present first new
    | none => exact firstEntry_mergeEntries_absent first new
  · obtain ⟨e', place, grows⟩ := mergeEntries_extends present new n e here
    refine ⟨e', place, grows, fun later => ?_⟩
    have unchanged : (mergeEntries present new)[n]? = some e := mergeEntries_getElem?_of_notFirst here later new
    exact Option.some.inj (place.symm.trans unchanged)

/-! ### A section fed again (R263) -/

/-- The section just merged is seen. -/
theorem seenBit_markSeen (seen : BitVec 256) (n : Byte) : seenBit (markSeen seen n) n = true := by
  simp [seenBit]

/-- The aggregator, run where it has just run on the same section, changes neither the store nor the flag: a test
that refused the section refuses it again, and one that was merged is now a duplicate. -/
theorem merge_again (sec : BATSection) (s : State) (o : Output) :
    (merge (some sec) ((merge (some sec) s).state.withOutput o)).state.store = (merge (some sec) s).state.store ∧
      (merge (some sec) ((merge (some sec) s).state.withOutput o)).state.storeOvf =
        (merge (some sec) s).state.storeOvf := by
  obtain ⟨handed, -⟩ | ⟨_, ⟨⟩, branch⟩ := merge_cases (some sec) s
  · cases handed
  obtain ⟨-, above, range⟩ | ⟨governs, ⟨fresh, branch⟩ | ⟨r, found, branch⟩⟩ := branch
  · rw [range, merge_of_range (s := (mergeRangeEffect sec s).state.withOutput o) above]
    exact ⟨rfl, rfl⟩
  · have within := governingLast_of_absent fresh ▸ governs
    obtain ⟨-, exceeded, ovf⟩ | ⟨-, -, create⟩ := branch
    · rw [ovf, merge_of_createOverflows (s := (mergeOvfEffect sec s).state.withOutput o) fresh within exceeded]
      exact ⟨rfl, rfl⟩
    · have found : (s.store.put (createdRecord sec)).lookup sec.bouquetId = some (createdRecord sec) :=
        Store.lookup_put_same s.store (createdRecord sec)
      rw [create, merge_of_dup (s := (mergeCreateEffect sec s).state.withOutput o) found within (seenBit_markSeen _ _)]
      exact ⟨rfl, rfl⟩
  · have within := governingLast_of_found found ▸ governs
    obtain ⟨-, seen, dup⟩ | ⟨-, unseen, exceeded, ovf⟩ | ⟨-, -, -, new⟩ := branch
    · rw [dup, merge_of_dup (s := (mergeDupEffect sec r s).state.withOutput o) found within seen]
      exact ⟨rfl, rfl⟩
    · rw [ovf, merge_of_mergeOverflows (s := (mergeOvfEffect sec s).state.withOutput o) found within unseen exceeded]
      exact ⟨rfl, rfl⟩
    · have found' : (s.store.put (mergedRecord r sec)).lookup sec.bouquetId = some (mergedRecord r sec) :=
        Store.lookup_key found ▸ Store.lookup_put_same s.store (mergedRecord r sec)
      rw [new, merge_of_dup (s := (mergeNewEffect sec r s).state.withOutput o) found' within (seenBit_markSeen _ _)]
      exact ⟨rfl, rfl⟩

/-- Settles O39: each selected operation is the aggregator, which changes nothing the second time. -/
theorem mergingTwiceIsMergingOnce : Obligations.MergingTwiceIsMergingOnce := by
  intro sec s
  obtain ⟨store, flag⟩ := merge_again sec s (.merged (merge (some sec) s).outcome (merge (some sec) s).events)
  exact ⟨_, _, exec_selectMerge (some sec) s, exec_selectMerge (some sec) _, store, flag⟩

/-! ### Other bouquets (R269) -/

theorem merge_lookup_other {sec : BATSection} {key : Half} (other : key ≠ sec.bouquetId) (s : State) :
    (merge (some sec) s).state.store.lookup key = s.store.lookup key := by
  obtain same | ⟨-, ovf⟩ | ⟨_, ⟨⟩, -, -, -, create⟩ | ⟨_, r, ⟨⟩, found, -, -, new⟩ := merge_writes (some sec) s
  · rw [same]
  · rw [ovf]
    rfl
  · rw [create]
    exact Store.lookup_put_other s.store (createdRecord sec) other
  · have own : r.bouquetId = sec.bouquetId := Store.lookup_key found
    rw [new]
    exact Store.lookup_put_other s.store (mergedRecord r sec) fun e => other (e.trans own)

/-- Settles O40: the aggregator writes at the section's key alone. -/
theorem mergeTouchesOnlyItsOwnBouquet : Obligations.MergeTouchesOnlyItsOwnBouquet := fun sec s =>
  ⟨_, exec_selectMerge (some sec) s, merge_reasm _ s, merge_params _ s, merge_input _ s,
    fun _ other => merge_lookup_other other s⟩

/-! ### A pair of sections (R265) -/

/-- Settles O41: the second section's number is the one bit of the pair that the record made of the first lacks. -/
theorem secondSectionCompletesThePair : Obligations.SecondSectionCompletesThePair := by
  intro a b s bouquets entries bytes fresh sameBouquet lastOne pair
  have withinA : a.sectionNumber.toNat ≤ a.lastSectionNumber.toNat := by
    obtain ⟨ha, -⟩ | ⟨ha, -⟩ := pair <;> simp [ha, lastOne]
  have withinB : b.sectionNumber.toNat ≤ (recordCreatedBy a).lastSectionNumber.toNat := by
    obtain ⟨-, hb⟩ | ⟨-, hb⟩ := pair <;> simp [recordCreatedBy, hb, lastOne]
  have bits : ∀ i, (recordCreatedBy a).seenSections.getLsbD i = decide (a.sectionNumber.toNat = i) := by
    intro i
    rw [← createdRecord_eq withinA]
    simp [createdRecord]
  have unseen : (recordCreatedBy a).seenSections.getLsbD b.sectionNumber.toNat = false := by
    rw [bits, decide_eq_false_iff_not]
    obtain ⟨ha, hb⟩ | ⟨ha, hb⟩ := pair <;> simp [ha, hb]
  have both : (recordMergedWith (recordCreatedBy a) b).complete = true := by
    refine decide_eq_true fun i (inRange : i < a.lastSectionNumber.toNat + 1) => ?_
    rw [bits, decide_eq_true_iff]
    obtain ⟨ha, hb⟩ | ⟨ha, hb⟩ := pair <;> simp [ha, hb, lastOne] at inRange ⊢ <;> omega
  have made : (s.store.put (recordCreatedBy a)).lookup a.bouquetId = some (recordCreatedBy a) :=
    Store.lookup_put_same s.store (recordCreatedBy a)
  refine ⟨_, _, recordCreatedBy a, recordMergedWith (recordCreatedBy a) b,
    createMakesTheRecord a s fresh withinA
      ⟨admits_of_none bouquets _, admits_of_none entries _, admits_of_none bytes _⟩,
    made, decide_eq_false (by simp [lastOne]),
    newSectionIsMerged b (recordCreatedBy a) _ (sameBouquet.symm ▸ made) withinB unseen
      ⟨admits_of_none entries _, admits_of_none bytes _⟩,
    Store.lookup_put_same _ (recordMergedWith (recordCreatedBy a) b), both, rfl⟩

/-! ### A complete record (R264) -/

/-- Every number a complete record admits is seen. -/
theorem BouquetRecord.Inv.seenBit_of_complete {r : BouquetRecord} (inv : r.Inv) (whole : r.complete = true) {n : Byte}
    (within : n.toNat ≤ r.lastSectionNumber.toNat) : seenBit r.seenSections n = true := by
  obtain ⟨completeIff, -, -, -, -⟩ := inv
  exact completeIff.mp whole n.toNat (Nat.lt_succ_of_le within)

/-- A complete record is left by every merge: a section of its bouquet is out of range or a duplicate. -/
theorem merge_keeps_complete (decoded : Option BATSection) {s : State} (inv : s.Inv) {key : Half} {r : BouquetRecord}
    (found : s.store.lookup key = some r) (whole : r.complete = true) :
    (merge decoded s).state.store.lookup key = some r := by
  cases decoded with
  | none => exact found
  | some sec =>
    by_cases own : key = sec.bouquetId
    · subst own
      have good : r.Inv := inv.records r (Store.lookup_mem found)
      by_cases above : r.lastSectionNumber.toNat < sec.sectionNumber.toNat
      · rw [merge_of_range (governingLast_of_found found ▸ above)]
        exact found
      · have within := Nat.not_lt.mp above
        rw [merge_of_dup found within (good.seenBit_of_complete whole within)]
        exact found
    · rw [merge_lookup_other own, found]

theorem reassemble_keeps_complete (payload : List Byte) (isStart : Bool) {s : State} (inv : s.Inv) {key : Half}
    {r : BouquetRecord} (found : s.store.lookup key = some r) (whole : r.complete = true) :
    (reassemble payload isStart s).state.store.lookup key = some r := by
  obtain ⟨x, -, state⟩ | ⟨buffer, state⟩ := reassemble_state payload isStart inv.collecting
  · rw [state]
    exact found
  · rw [state]
    exact merge_keeps_complete _ inv found whole

/-- Settles O50: within the run only a merge writes the store, and it leaves a complete record. -/
theorem completeRecordsNeverChange : Obligations.CompleteRecordsNeverChange := by
  intro s t op rest key r inv presented run stepped found whole
  obtain ⟨-, o, rfl⟩ | ⟨-, payload, isStart, o, rfl⟩ | ⟨reset, -⟩ := step_next_cases presented stepped
  · exact found
  · exact reassemble_keeps_complete payload isStart (inv.withInput rest) found whole
  · exact absurd reset run

end Sys2Proof.Machine
end

section
/-! PROOFS. The obligations of spec/45_block_operations.md: what a step on each of the host's transactions answers, that
it always answers and delivers at most one section, and RESET and READ by themselves. -/

namespace Sys2Proof.Machine

/-! ### RESET (spec/45_block_operations.md R290) -/

/-- Every field but the parameters and the queue goes to its value after power-up (decisions D20 and D30). -/
theorem exec_reset (s : State) :
    exec .reset s = .next { State.reset with params := s.params, input := s.input } := rfl

theorem step_of_reset {s : State} {rest : List HostOp} (presented : s.input = .reset :: rest) :
    step s = .next { State.reset with params := s.params, input := rest } :=
  (step_of_input_cons presented).trans (exec_reset (s.withInput rest))

/-- Settles O42, by RESET itself and with it taken from the queue. -/
theorem resetStartsANewRun : Obligations.ResetStartsANewRun :=
  fun s => ⟨exec_reset s, fun _ => step_of_reset⟩

/-! ### READ (spec/45_block_operations.md R292) -/

theorem exec_read (key : Option Half) (s : State) :
    exec (.read key) s = .next (s.withOutput (.read (readValue key s) (statusOf s))) := rfl

/-- Neither the value nor the status shows what is still to be presented. -/
theorem step_of_read {s : State} {key : Option Half} {rest : List HostOp} (presented : s.input = .read key :: rest) :
    step s = .next ((s.withInput rest).withOutput (.read (readValue key s) (statusOf s))) :=
  (step_of_input_cons presented).trans (exec_read key (s.withInput rest))

/-- In Idle the status has neither length (spec/10_state.md R40, log entry 4). -/
theorem statusOf_of_idle {s : State} (idle : s.reasm = .idle) :
    statusOf s =
      { targetPid := s.params.targetPid, tableId := batTableId, fsm := 0#1, expectedLength := none, sbLength := none,
        storeOvf := s.storeOvf } := by
  simp [statusOf, collectingFlag, idle]

theorem statusOf_of_collecting {s : State} {expected : Nat} {sb : List Byte}
    (collecting : s.reasm = .collecting expected sb) :
    statusOf s =
      { targetPid := s.params.targetPid, tableId := batTableId, fsm := 1#1, expectedLength := some expected,
        sbLength := some sb.length, storeOvf := s.storeOvf } := by
  simp [statusOf, collectingFlag, collecting]

/-- Settles O44: one status goes with either value; `fsm` and the two lengths follow the reassembler. -/
theorem readReturnsACopy : Obligations.ReadReturnsACopy := by
  intro s key
  refine ⟨statusOf s, exec_read (some key) s, exec_read none s, rfl, rfl, rfl, ?_, ?_⟩
  · intro idle
    rw [statusOf_of_idle idle]
    exact ⟨rfl, rfl, rfl⟩
  · intro expected sb collecting
    rw [statusOf_of_collecting collecting]
    exact ⟨rfl, rfl, rfl⟩

/-! ### PKT (spec/45_block_operations.md R280, R286) -/

/-- A step on a block drops it, or leaves and reports what the reassembler makes of its payload. -/
theorem step_of_pkt_cases {s : State} {block : List Byte} {rest : List HostOp}
    (presented : s.input = .pkt block :: rest) :
    (∃ ev, step s = .next ((s.withInput rest).withOutput (droppedResult ev))) ∨
    ∃ payload isStart, step s =
      .next ((reassemble payload isStart (s.withInput rest)).state.withOutput
        (payloadResult payload.length isStart (reassemble payload isStart (s.withInput rest)).report)) := by
  rw [step_of_input_cons presented, decodeOp_pkt]
  obtain ⟨ev, drops⟩ | ⟨payload, isStart, passes⟩ :=
    exec_decodeBlock_cases s.params.targetPid block (s.withInput rest)
  · exact .inl ⟨ev, drops.trans (dropBlock_eq ev _)⟩
  · exact .inr ⟨payload, isStart, passes.trans (passPayload_of_reassemble rfl)⟩

/-! ### Every step completes (spec/45_block_operations.md R281) -/

/-- Settles O7, by what each of the host's transactions answers; of them only PKT runs the reassembler, which writes
neither the queue nor the parameters. -/
theorem everyStepCompletes : Obligations.EveryStepCompletes := by
  intro s
  cases presented : s.input with
  | nil => exact ⟨s, step_of_input_nil presented, presented, rfl⟩
  | cons op rest =>
    cases op with
    | pkt block =>
      obtain ⟨ev, drops⟩ | ⟨payload, isStart, passes⟩ := step_of_pkt_cases presented
      · exact ⟨_, drops, rfl, rfl⟩
      · exact ⟨_, passes, reassemble_input payload isStart _, reassemble_params payload isStart _⟩
    | reset => exact ⟨_, step_of_reset presented, rfl, rfl⟩
    | read key => exact ⟨_, step_of_read presented, rfl, rfl⟩

/-! ### Deliveries of a step (spec/45_block_operations.md R286, spec/10_state.md R27) -/

@[simp] theorem droppedResult_deliveries (ev : Event) : (droppedResult ev).deliveries = [] := rfl

@[simp] theorem payloadResult_deliveries (length : Nat) (isStart : Bool) (r : ReasmReport) :
    (payloadResult length isStart r).deliveries = r.delivered := rfl

/-- One check delivers at most the one section it finds in the buffer (spec/43_section_reassembler.md R212). -/
theorem completionCheck_delivers_at_most_one (s : State) : (completionCheck s).delivered.length ≤ 1 := by
  obtain ⟨-, nothing⟩ | ⟨expected, sb, -, ⟨-, nothing⟩ | ⟨-, delivers⟩⟩ := completionCheck_cases s
  · simp [nothing]
  · simp [nothing]
  · simp [delivers]

/-- A start payload checks twice, but between steps no full buffer waits for its first check
(spec/43_section_reassembler.md R203). -/
theorem reassemble_delivers_at_most_one (payload : List Byte) (isStart : Bool) {s : State} (inv : s.reasm.Inv) :
    (reassemble payload isStart s).report.delivered.length ≤ 1 := by
  have firstCheck := completionCheck_of_inv inv
  obtain ⟨-, ev, -, skips⟩ | ⟨-, seed, -, begins⟩ | ⟨-, -, ignores⟩ | ⟨-, expected, sb, -, appends⟩ :=
    reassemble_cases payload isStart s
  · simp [skips, skipStart, firstCheck]
  · rw [begins]
    simpa [beginSection, firstCheck] using completionCheck_delivers_at_most_one (seedBuffer seed s)
  · simp [ignores, ignorePayload]
  · rw [appends]
    exact completionCheck_delivers_at_most_one (s.withReasm (.collecting expected (sb ++ payload)))

/-- Settles O48: only a block with a payload can deliver, by its one invocation of the reassembler. -/
theorem atMostOneDeliveryPerStep : Obligations.AtMostOneDeliveryPerStep := by
  intro s t inv nonempty stepped
  cases presented : s.input with
  | nil => exact absurd presented nonempty
  | cons op rest =>
    cases op with
    | pkt block =>
      obtain ⟨ev, drops⟩ | ⟨payload, isStart, passes⟩ := step_of_pkt_cases presented
      · cases drops.symm.trans stepped
        simp
      · cases passes.symm.trans stepped
        simpa using reassemble_delivers_at_most_one payload isStart (inv.withInput rest).collecting
    | reset =>
      cases (step_of_reset presented).symm.trans stepped
      exact Nat.zero_le 1
    | read key =>
      cases (step_of_read presented).symm.trans stepped
      exact Nat.zero_le 1

end Sys2Proof.Machine
end

section
/-! PROOFS. The obligation of spec/60_exceptions.md: the report, the queue and `BLOCK_MAX` are read by no operation
(R303, spec/10_state.md R41, spec/00_scope.md R7; the queue is the model's own field, log entry 1). Each component, run
with other values of the three, leaves the state it left before with those values in place. -/

namespace Sys2Proof.Machine

/-! ### Other values of what no operation reads -/

/-- The state with another report, another queue and another `BLOCK_MAX`, as the statement writes it. -/
def State.withUnread (s : State) (o : Output) (ops : List HostOp) (m : Option Nat) : State :=
  { s with output := o, input := ops, params := { s.params with blockMax := m } }

section
variable (s : State) (o : Output) (ops : List HostOp) (m : Option Nat)

@[simp] theorem State.withUnread_targetPid : (s.withUnread o ops m).params.targetPid = s.params.targetPid := rfl
@[simp] theorem State.withUnread_reasm : (s.withUnread o ops m).reasm = s.reasm := rfl

@[simp] theorem State.withUnread_withReasm (r : Reassembler) :
    (s.withUnread o ops m).withReasm r = (s.withReasm r).withUnread o ops m := rfl

/-! ### The aggregator and a delivery -/

theorem createOverflows_withUnread (sec : BATSection) :
    createOverflows sec (s.withUnread o ops m) = createOverflows sec s := rfl

theorem mergeOverflows_withUnread (r : BouquetRecord) (sec : BATSection) :
    mergeOverflows r sec (s.withUnread o ops m) = mergeOverflows r sec s := rfl

/-- The aggregator's tests read the store and the capacities (spec/44_bouquet_aggregator.md R262). -/
theorem merge_withUnread (decoded : Option BATSection) :
    merge decoded (s.withUnread o ops m) =
      { merge decoded s with state := (merge decoded s).state.withUnread o ops m } := by
  obtain ⟨rfl, -⟩ | ⟨sec, rfl, ⟨-, above, -⟩ | ⟨governs, ⟨fresh, -⟩ | ⟨r, found, -⟩⟩⟩ := merge_cases decoded s
  · rfl
  · rw [merge_of_range above, merge_of_range (s := s.withUnread o ops m) above]
    rfl
  · have within := governingLast_of_absent fresh ▸ governs
    rw [merge_of_absent fresh within, merge_of_absent (s := s.withUnread o ops m) fresh within,
      createOverflows_withUnread]
    split_ifs <;> rfl
  · have within := governingLast_of_found found ▸ governs
    rw [merge_of_found found within, merge_of_found (s := s.withUnread o ops m) found within,
      mergeOverflows_withUnread]
    split_ifs <;> rfl

theorem deliver_withUnread (buffer : List Byte) :
    deliver buffer (s.withUnread o ops m) =
      { deliver buffer s with state := (deliver buffer s).state.withUnread o ops m } := by
  simp [deliver, merge_withUnread]

/-! ### The reassembler -/

/-- The check reads the buffer and its expected length (spec/43_section_reassembler.md R212). -/
theorem completionCheck_withUnread :
    completionCheck (s.withUnread o ops m) =
      { completionCheck s with state := (completionCheck s).state.withUnread o ops m } := by
  obtain ⟨idle, nothing⟩ | ⟨expected, sb, collecting, ⟨short, nothing⟩ | ⟨full, -⟩⟩ := completionCheck_cases s
  · rw [nothing, completionCheck_idle (s := s.withUnread o ops m) idle]
  · rw [nothing, completionCheck_short (s := s.withUnread o ops m) collecting short]
  · rw [completionCheck_of_full collecting full, completionCheck_of_full (s := s.withUnread o ops m) collecting full,
      deliver_withUnread, State.withUnread_withReasm]

theorem droppedEvents_withUnread : droppedEvents (s.withUnread o ops m) = droppedEvents s := rfl

theorem setIdle_withUnread : setIdle (s.withUnread o ops m) = (setIdle s).withUnread o ops m := rfl

theorem seedBuffer_withUnread (seed : Seed) :
    seedBuffer seed (s.withUnread o ops m) = (seedBuffer seed s).withUnread o ops m := rfl

/-- The branches read `fsm` and the payload (spec/43_section_reassembler.md R202). -/
theorem reassemble_withUnread (payload : List Byte) (isStart : Bool) :
    reassemble payload isStart (s.withUnread o ops m) =
      { reassemble payload isStart s with state := (reassemble payload isStart s).state.withUnread o ops m } := by
  cases isStart with
  | true =>
    cases seeds : startSeed payload with
    | error ev =>
      simp [reassemble_of_error seeds, skipStart, completionCheck_withUnread, droppedEvents_withUnread,
        setIdle_withUnread]
    | ok seed =>
      simp [reassemble_of_seed seeds, beginSection, completionCheck_withUnread, droppedEvents_withUnread,
        seedBuffer_withUnread]
  | false =>
    cases fsm : s.reasm with
    | idle => simp [reassemble, contPayload, fsm, ignorePayload]
    | collecting expected sb => simp [reassemble, contPayload, fsm, appendPayload, completionCheck_withUnread]

end

/-! ### What an operation answers -/

/-- With another report, queue and `BLOCK_MAX` a meaning answers the same next state and report, the queue and
`BLOCK_MAX` carried along. -/
def IgnoresUnread (meaning : State → Answer) : Prop :=
  ∀ (s : State) (o : Output) (ops : List HostOp) (m : Option Nat), ∃ t : State,
    meaning s = .next t ∧ meaning (s.withUnread o ops m) = .next (t.withUnread t.output ops m)

/-- The new report replaces the old one, so it is enough that the rest of the state carries the other values along and
that the report is the same. -/
theorem ignoresUnread_of_finish {meaning : State → Answer} {leaves : State → State} {reports : State → Output}
    (runs : ∀ s, meaning s = finish (leaves s) (reports s))
    (carries : ∀ s o ops m, leaves (s.withUnread o ops m) = (leaves s).withUnread o ops m)
    (same : ∀ s o ops m, reports (s.withUnread o ops m) = reports s) : IgnoresUnread meaning := by
  intro s o ops m
  refine ⟨(leaves s).withOutput (reports s), runs s, ?_⟩
  rw [runs, carries, same]
  rfl

/-- A meaning that leaves the state as it is and reports on its operands alone. -/
theorem ignoresUnread_of_report {meaning : State → Answer} {report : Output} (runs : ∀ s, meaning s = finish s report) :
    IgnoresUnread meaning :=
  ignoresUnread_of_finish (leaves := id) (reports := fun _ => report) runs (fun _ _ _ _ => rfl) fun _ _ _ _ => rfl

theorem ignoresUnread_of_merge {meaning : State → Answer} {decoded : Option BATSection}
    (runs : ∀ s, meaning s = finishMerge (merge decoded s)) : IgnoresUnread meaning :=
  ignoresUnread_of_finish runs (fun s o ops m => by rw [merge_withUnread]) fun s o ops m => by rw [merge_withUnread]

theorem ignoresUnread_of_reassemble {meaning : State → Answer} {payload : List Byte} {isStart : Bool}
    (runs : ∀ s, meaning s = finishReasm (reassemble payload isStart s)) : IgnoresUnread meaning :=
  ignoresUnread_of_finish runs (fun s o ops m => by rw [reassemble_withUnread])
    fun s o ops m => by rw [reassemble_withUnread]

theorem execSecDeliver_ignoresUnread (buffer : List Byte) : IgnoresUnread (execSecDeliver buffer) :=
  ignoresUnread_of_finish (fun _ => rfl) (fun s o ops m => by rw [deliver_withUnread])
    fun s o ops m => by rw [deliver_withUnread]

theorem dropBlock_ignoresUnread (ev : Event) : IgnoresUnread (dropBlock ev) :=
  ignoresUnread_of_report fun _ => rfl

theorem passPayload_ignoresUnread (payload : List Byte) (isStart : Bool) :
    IgnoresUnread (passPayload payload isStart) :=
  ignoresUnread_of_finish (fun _ => rfl) (fun s o ops m => by rw [reassemble_withUnread])
    fun s o ops m => by rw [reassemble_withUnread]

theorem passAfterField_ignoresUnread (afLen : Byte) (rest : List Byte) (isStart : Bool) :
    IgnoresUnread (passAfterField afLen rest isStart) := by
  intro s o ops m
  simp only [passAfterField]
  split_ifs
  · exact dropBlock_ignoresUnread _ s o ops m
  · exact passPayload_ignoresUnread _ isStart s o ops m

/-- The demultiplexer reads the block and `TARGET_PID` (spec/40_packet_demux.md R132). -/
theorem execPkt_ignoresUnread (block : List Byte) : IgnoresUnread (execPkt block) := by
  intro s o ops m
  simp only [execPkt, State.withUnread_targetPid]
  cases demux block s.params.targetPid with
  | drop ev => exact dropBlock_ignoresUnread ev s o ops m
  | pass payload isStart => exact passPayload_ignoresUnread payload isStart s o ops m

theorem execReset_ignoresUnread : IgnoresUnread execReset :=
  ignoresUnread_of_finish (fun _ => rfl) (fun _ _ _ _ => rfl) fun _ _ _ _ => rfl

/-- A READ answers of the store and the status values, and `BLOCK_MAX` is none of these (spec/10_state.md R40). -/
theorem execRead_ignoresUnread (key : Option Half) : IgnoresUnread (execRead key) :=
  ignoresUnread_of_finish (leaves := id) (fun _ => rfl) (fun _ _ _ _ => rfl) fun _ _ _ _ => rfl

theorem exec_ignoresUnread (i : Instr) : IgnoresUnread (exec i) := by
  cases i with
  | pktBadLen block => exact dropBlock_ignoresUnread (.frameLen block.length)
  | pktStartAfc01 bits payload => exact passPayload_ignoresUnread payload true
  | pktContAfc01 bits payload => exact passPayload_ignoresUnread payload false
  | pktStartAfc11 bits afLen rest => exact passAfterField_ignoresUnread afLen rest true
  | pktContAfc11 bits afLen rest => exact passAfterField_ignoresUnread afLen rest false
  | pktNoPayloadAfc00 bits pusi rest => exact dropBlock_ignoresUnread (.noPayload 0#2)
  | pktNoPayloadAfc10 bits pusi rest => exact dropBlock_ignoresUnread (.noPayload 2#2)
  | pktOtherPid bits pusi pid afc rest => exact dropBlock_ignoresUnread (.pidMismatch pid)
  | pktBadSync first rest => exact dropBlock_ignoresUnread (.frameSync first)
  | secBegin ptr pre sec => exact ignoresUnread_of_reassemble (execSecBegin_eq ptr pre sec)
  | secSkip payload => exact ignoresUnread_of_reassemble (execSecSkip_eq payload)
  | secAppend payload => exact ignoresUnread_of_reassemble (execSecAppend_eq payload)
  | secIgnore payload => exact ignoresUnread_of_reassemble (execSecIgnore_eq payload)
  | secDeliver buffer => exact execSecDeliver_ignoresUnread buffer
  | sectionDecode buffer => exact ignoresUnread_of_report fun _ => rfl
  | descParse data => exact ignoresUnread_of_report fun _ => rfl
  | mergeCreate sec => exact ignoresUnread_of_merge (execMergeCreate_eq sec)
  | mergeNew sec => exact ignoresUnread_of_merge (execMergeNew_eq sec)
  | mergeDup sec => exact ignoresUnread_of_merge (execMergeDup_eq sec)
  | mergeRange sec => exact ignoresUnread_of_merge (execMergeRange_eq sec)
  | mergeOvf sec => exact ignoresUnread_of_merge (execMergeOvf_eq sec)
  | mergeAbsent => exact ignoresUnread_of_merge (decoded := none) fun _ => rfl
  | pkt block => exact execPkt_ignoresUnread block
  | reset => exact execReset_ignoresUnread
  | read key => exact execRead_ignoresUnread key

/-- Settles O51, instruction by instruction: each is a component that reads none of the three, and a new report. -/
theorem noOperationReadsReportQueueOrBlockMax : Obligations.NoOperationReadsReportQueueOrBlockMax :=
  exec_ignoresUnread

end Sys2Proof.Machine
end
